-- ==== Sys2Proof/Word.lean ====
section
/-! DEFINITION. The two bit-vector types of the engine: a byte of buffer memory and a 32-bit register
(00_scope.md rule R11). Every value is unsigned (rule R12). -/

namespace Sys2Proof

/-- A byte, an unsigned integer 0..255 (00_scope.md rule R11). -/
abbrev Byte := BitVec 8

/-- A 32-bit register, address or command word (00_scope.md rule R10: REG_W = ADDR_W = 32). -/
abbrev Word := BitVec 32

end Sys2Proof
end

