-- ==== Sys2Proof/Machine/Bytes.lean ====
section
/-! DEFINITION. Byte-order and bit-field helpers (00_scope.md rules R12, R13; 20_memory.md rules R208, R211). -/

namespace Sys2Proof.Machine

/-- Byte `k` of a u32 in wire order, byte 0 the most significant (00_scope.md rule R13, `bytes_be32`). -/
def wireByte (w : Word) (k : Nat) : Byte := w.extractLsb' (8 * (3 - k)) 8

/-- `bytes_be32(v)` (00_scope.md rule R13). -/
def bytesBe32 (w : Word) : List Byte := [wireByte w 0, wireByte w 1, wireByte w 2, wireByte w 3]

/-- `be32` of the four bytes of a field, the first most significant (00_scope.md rule R13). -/
def be32 (b0 b1 b2 b3 : Byte) : Word := b0 ++ b1 ++ b2 ++ b3

/-- `SIG`, the PNG signature (20_memory.md rule R211). -/
def sig : List Byte := [0x89, 0x50, 0x4E, 0x47, 0x0D, 0x0A, 0x1A, 0x0A]

/-- A flag placed at bit `k` of an otherwise zero value of `n` bits (00_scope.md rule R12, `<<`). -/
def flagAt (n : Nat) (b : Bool) (k : Nat) : BitVec n := if b then BitVec.ofNat n (2 ^ k) else 0

/-- A byte count or address written to a 32-bit register, reduced modulo 2^32 (00_scope.md rule R11, 20_memory.md
rule R207). -/
def toReg (n : Nat) : Word := BitVec.ofNat 32 n

end Sys2Proof.Machine
end

