-- ==== Sys2Proof/Machine/Crc32.lean ====
section
/-! DEFINITION. The CRC-32 function (42_crc.md rules R601 to R604). Its parameters are the spec's general
knowledge (93_implementation_defined.md G1; log entry 15). -/

namespace Sys2Proof.Machine

/-- The bit-reversed generator polynomial (42_crc.md rule R601). -/
def crcPoly : Word := 0xEDB88320

/-- One of the eight shifts of `upd` (42_crc.md rule R602). -/
def crcShift (c : Word) : Word := if c.getLsbD 0 then (c >>> 1) ^^^ crcPoly else c >>> 1

/-- `n` shifts. -/
def crcShifts : Nat → Word → Word
  | 0, c => c
  | n + 1, c => crcShifts n (crcShift c)

/-- `upd(c, b)`, the register after one byte (42_crc.md rule R602). -/
def upd (c : Word) (b : Byte) : Word := crcShifts 8 (c ^^^ b.setWidth 32)

/-- `fold(c, s)`, the register after each byte of `s` in order (42_crc.md rule R603). -/
def fold : Word → List Byte → Word
  | c, [] => c
  | c, b :: t => fold (upd c b) t

/-- The initial register value and the final XOR (42_crc.md rule R601). -/
def crcOnes : Word := 0xFFFFFFFF

/-- `crc32(s)` (42_crc.md rule R604). -/
def crc32 (s : List Byte) : Word := fold crcOnes s ^^^ crcOnes

end Sys2Proof.Machine
end

