-- ==== Sys2Proof/Syntax.lean ====
section
/-! DEFINITION. The eleven commands (spec/opcode_table.json, 30_encoding.md rule R304), the registers the host
names (10_state.md rule R103), and the host's accesses (30_encoding.md rules R309, R312; 00_scope.md rule R7). -/

namespace Sys2Proof

/-- The commands, one constructor per row of spec/opcode_table.json. Only CRC_BYTE has an operand in its word
(30_encoding.md rule R302); every other operand is implicit (rule R305). -/
inductive Instr where
  /-- NOP, 40_command.md rule R410. -/
  | nop
  /-- CRC_INIT, 42_crc.md rule R610. -/
  | crcInit
  /-- CRC_BYTE imm8, 42_crc.md rule R611; the operand byte as is (30_encoding.md rule R303). -/
  | crcByte (imm8 : Byte)
  /-- CRC_BUF, 42_crc.md rule R612. -/
  | crcBuf
  /-- TYPE_CHECK, 41_chunk_type.md rule R510. -/
  | typeCheck
  /-- FRAME, 43_chunk_codec.md rule R702. -/
  | frame
  /-- DEFRAME, 43_chunk_codec.md rule R720. -/
  | deframe
  /-- SEQ_START, 44_sequencer.md rule R801. -/
  | seqStart
  /-- SEQ_NEXT, 44_sequencer.md rule R810. -/
  | seqNext
  /-- OUT_START, 44_sequencer.md rule R820. -/
  | outStart
  /-- SIG_EMIT, 44_sequencer.md rule R821. -/
  | sigEmit
  deriving DecidableEq, Repr

/-- The 27 named registers of the register map (10_state.md rules R101, R103). -/
inductive Reg where
  | id | version | ctrl | status | cmd | errcode | errIdx | errAddr
  | srcAddr | srcLen | dstAddr | dstCap | type | typeProps | crcState | crcValue
  | decLen | decType | decDataAddr | decStoredCrc | chunkCrc
  | curAddr | curRem | chunkIdx | outPtr | outRem | outCount
  deriving DecidableEq, Repr

/-- The size of a register-port access: 1, 2 or 4 bytes (30_encoding.md rule R309). -/
inductive AccessSize where
  | byte | half | word
  deriving DecidableEq, Repr

/-- One step of the host (00_scope.md rule R7 (a)): a register-port access, the tuple of 30_encoding.md rule
R309 with a 7-bit byte offset, or a byte access to the buffer memory by the host's own path. -/
inductive HostStep where
  /-- A register-port read. -/
  | portRead (offset : BitVec 7) (size : AccessSize)
  /-- A register-port write. -/
  | portWrite (offset : BitVec 7) (size : AccessSize) (wdata : Word)
  /-- The host reads one byte of buffer memory. -/
  | memRead (addr : Word)
  /-- The host writes one byte of buffer memory. -/
  | memWrite (addr : Word) (value : Byte)
  deriving DecidableEq, Repr

/-- Who moves next (00_scope.md rule R7): the host, the engine, or the reset event. -/
inductive Turn where
  | host (h : HostStep)
  | engine
  | reset
  deriving DecidableEq, Repr

end Sys2Proof
end

