-- ==== Sys2Proof/WellFormed.lean ====
section
/-! DEFINITION. Which words are commands: the three checks of 30_encoding.md rule R307, each of its own, stated
without the decoder. An `Instr` has no ill-formed term: its one operand is a byte by its type (rule R303). -/

namespace Sys2Proof

/-- `w[31:24]`, the OPC field (30_encoding.md rule R301). -/
def Word.opc (w : Word) : BitVec 8 := w.extractLsb' 24 8

/-- `w[23:8]`, the RSV field (30_encoding.md rule R301). -/
def Word.rsv (w : Word) : BitVec 16 := w.extractLsb' 8 16

/-- `w[7:0]`, the IMM8 field (30_encoding.md rule R301). -/
def Word.imm8 (w : Word) : Byte := w.extractLsb' 0 8

/-- The eleven assigned opcodes (30_encoding.md rule R304). -/
def assignedOpcodes : List (BitVec 8) :=
  [0x00, 0x01, 0x02, 0x03, 0x04, 0x10, 0x11, 0x20, 0x21, 0x30, 0x31]

/-- The OPC field is one of the eleven (30_encoding.md rule R307, first class of illegal word). -/
def Word.opcodeAssigned (w : Word) : Bool := assignedOpcodes.contains (Word.opc w)

/-- RSV is 0 (30_encoding.md rule R307, second class). -/
def Word.reservedClear (w : Word) : Bool := Word.rsv w == 0

/-- IMM8 is 0 unless the opcode is CRC_BYTE's (30_encoding.md rule R307, third class). -/
def Word.immediateAllowed (w : Word) : Bool := Word.opc w == 0x02 || Word.imm8 w == 0

/-- A word that is a command: all three checks (30_encoding.md rules R306, R307). -/
def Word.wellFormed (w : Word) : Bool :=
  Word.opcodeAssigned w && Word.reservedClear w && Word.immediateAllowed w

/-- Every `Instr` is well formed: format N has no operand and format I's is a byte (30_encoding.md rule R302). -/
def Instr.wellFormed : Instr → Bool
  | .nop => true
  | .crcInit => true
  | .crcByte _ => true
  | .crcBuf => true
  | .typeCheck => true
  | .frame => true
  | .deframe => true
  | .seqStart => true
  | .seqNext => true
  | .outStart => true
  | .sigEmit => true

end Sys2Proof
end

