-- ==== Sys2Proof/Decode.lean ====
section
/-! DEFINITION. The decoder of 30_encoding.md rule R306, total on any 32-bit word and rejecting by name, the
encoder of rule R302, and the table's match and mask (rule R304). -/

namespace Sys2Proof

/-- Why a word is Illegal (30_encoding.md rules R306, R307). -/
inductive IllegalWord where
  /-- OPC is none of the eleven. -/
  | unassignedOpcode (opc : BitVec 8)
  /-- RSV ≠ 0. -/
  | reservedField
  /-- A format-N word with IMM8 ≠ 0. -/
  | strayImmediate
  deriving DecidableEq, Repr

/-- The command an opcode selects, with the immediate it may carry (30_encoding.md rule R304). -/
def commandOf (opc : BitVec 8) (imm : Byte) : Option Instr :=
  match opc with
  | 0x00#8 => some .nop
  | 0x01#8 => some .crcInit
  | 0x02#8 => some (.crcByte imm)
  | 0x03#8 => some .crcBuf
  | 0x04#8 => some .typeCheck
  | 0x10#8 => some .frame
  | 0x11#8 => some .deframe
  | 0x20#8 => some .seqStart
  | 0x21#8 => some .seqNext
  | 0x30#8 => some .outStart
  | 0x31#8 => some .sigEmit
  | _ => none

/-- `decode` of 30_encoding.md rule R306: the opcode first, then RSV, then IMM8. -/
def decode (w : Word) : Except IllegalWord Instr :=
  let opc := w.extractLsb' 24 8
  let rsv := w.extractLsb' 8 16
  let imm := w.extractLsb' 0 8
  match commandOf opc imm with
  | none => .error (.unassignedOpcode opc)
  | some c =>
    if rsv ≠ 0 then .error .reservedField
    else if opc ≠ 0x02 ∧ imm ≠ 0 then .error .strayImmediate
    else .ok c

/-- OPC of each command (30_encoding.md rule R304). -/
def Instr.opcode : Instr → BitVec 8
  | .nop => 0x00
  | .crcInit => 0x01
  | .crcByte _ => 0x02
  | .crcBuf => 0x03
  | .typeCheck => 0x04
  | .frame => 0x10
  | .deframe => 0x11
  | .seqStart => 0x20
  | .seqNext => 0x21
  | .outStart => 0x30
  | .sigEmit => 0x31

/-- IMM8 of each command: CRC_BYTE's operand, 0 for format N (30_encoding.md rule R302). -/
def Instr.immediate : Instr → Byte
  | .crcByte imm8 => imm8
  | .nop => 0
  | .crcInit => 0
  | .crcBuf => 0
  | .typeCheck => 0
  | .frame => 0
  | .deframe => 0
  | .seqStart => 0
  | .seqNext => 0
  | .outStart => 0
  | .sigEmit => 0

/-- The word of a command: OPC, RSV = 0, IMM8 (30_encoding.md rules R301, R302). -/
def encode (i : Instr) : Word := i.opcode ++ (0 : BitVec 16) ++ i.immediate

/-- One row of the opcode map (30_encoding.md rule R304): match, mask. -/
structure TableRow where
  pattern : Word
  mask : Word
  deriving DecidableEq, Repr

/-- The eleven rows of 30_encoding.md rule R304. -/
def opcodeTable : List TableRow :=
  [⟨0x00000000, 0xFFFFFFFF⟩, ⟨0x01000000, 0xFFFFFFFF⟩, ⟨0x02000000, 0xFFFFFF00⟩, ⟨0x03000000, 0xFFFFFFFF⟩,
   ⟨0x04000000, 0xFFFFFFFF⟩, ⟨0x10000000, 0xFFFFFFFF⟩, ⟨0x11000000, 0xFFFFFFFF⟩, ⟨0x20000000, 0xFFFFFFFF⟩,
   ⟨0x21000000, 0xFFFFFFFF⟩, ⟨0x30000000, 0xFFFFFFFF⟩, ⟨0x31000000, 0xFFFFFFFF⟩]

/-- A word selects a row when `(w and mask) = match` (30_encoding.md rule R304). -/
def TableRow.selects (r : TableRow) (w : Word) : Bool := (w &&& r.mask) == r.pattern

/-- The instruction the decoder reads from a word given as a number, its bits above `nbits` being 0. A command is
one 32-bit word written in one register-port write (30_encoding.md rule R308), so no byte order enters. -/
def decodeTableWord (nbits w : Nat) : Option Instr :=
  match decode (BitVec.ofNat 32 (w % 2 ^ nbits)) with
  | .ok i => some i
  | .error _ => none

end Sys2Proof
end

