-- ==== Sys2Proof/Config.lean ====
section
/-! DEFINITION. The parameters the spec leaves open (00_scope.md rule R10, 92_eei_decisions.md) and the free
values (93_implementation_defined.md, U1, U2, U7). -/

namespace Sys2Proof

/-- The implementation parameter a model takes as an argument: the size of the buffer memory
(00_scope.md rule R10, 1 ≤ MEM_SIZE ≤ 2^32). It is held as the address of the last byte, so that every
value of the field is a legal size and every legal size is a value of the field. -/
structure Config where
  /-- MEM_SIZE − 1, the highest buffer-memory address (20_memory.md rule R201). -/
  memTop : Word
  deriving DecidableEq, Repr

/-- `MEM_SIZE`, the number of bytes of buffer memory (20_memory.md rule R201). -/
def Config.memSize (c : Config) : Nat := c.memTop.toNat + 1

/-- FREE VALUE (U7; 20_memory.md rule R201 "its contents at power-up are unspecified"): the byte that stands at
an address nothing has written since power-up. No body: nothing can be proved of it. Log entry 4. -/
opaque Config.powerUpByte : Nat → Byte

/-- FREE VALUE (U1, 20_memory.md rule R234; U2, 70_reset_and_hazards.md rule R1003): the n-th byte the hardware
leaves open. It is applied to the counter `State.freeIx`, so each use is a fresh value. No body. Log entry 5. -/
opaque Config.freeByte : Nat → Byte

/-- `REG_BASE`, where the platform puts the register space (20_memory.md rule R202). OPEN, and no rule of the
engine reads it. Log entry 12. -/
opaque Config.regBase : Word

/-- `IRQ_LINE`, how `irq` reaches a processor (60_exceptions.md rule R921). OPEN, and no rule of the engine reads
it. Log entry 12. -/
opaque Config.irqLine : Nat

end Sys2Proof
end

