-- ==== Sys2Proof/Machine/State.lean ====
section
/-! DEFINITION. The state of the system as plain data: the engine's record (10_state.md rule R131), the buffer
memory (20_memory.md rule R201), the open parameter MEM_SIZE, and the model's own schedule, observations and
free-value counter. Reset: 70_reset_and_hazards.md rule R1001. -/

namespace Sys2Proof.Machine

/-- The sequencer's states (10_state.md rule R129). -/
inductive SeqState where
  /-- IDLE (0): no stream started since reset. -/
  | idle
  /-- STREAM (1): a stream is open. -/
  | stream
  /-- END (2): the open stream has no bytes left. -/
  | ended
  /-- FAILED (3): the last SEQ_START or chunk decode failed. -/
  | failed
  deriving DecidableEq, Repr

/-- The error codes the engine produces, 0 to 8 (60_exceptions.md rule R901); 9 to 15 are never produced (U8). -/
inductive ErrCode where
  | none | invalidChunkType | invalidSignature | unexpectedEof | crcMismatch
  | illegalCommand | sequenceError | dstOverflow | busError
  deriving DecidableEq, Repr

/-- The error record: the fields of ERRCODE (10_state.md rule R109), ERR_IDX (R110) and ERR_ADDR (R111). -/
structure ErrorRecord where
  code : ErrCode
  inSeq : Bool
  opc : BitVec 8
  idx : Word
  addr : Word
  deriving DecidableEq, Repr

/-- The error record acceptance and reset leave: all zeros (40_command.md rule R403). -/
def ErrorRecord.clear : ErrorRecord := ⟨.none, false, 0, 0, 0⟩

/-- The host-written operand registers, which are also the ones the latch copies (10_state.md rules R112 to
R116, R118, R130). -/
structure Operands where
  srcAddr : Word
  srcLen : Word
  dstAddr : Word
  dstCap : Word
  /-- TYPE, four type bytes in wire order, byte 0 in bits [31:24] (R116). -/
  chunkType : Word
  crcState : Word
  deriving DecidableEq, Repr

/-- LATCH: the command word and the operands copied at acceptance (10_state.md rule R130). -/
structure Latch where
  word : Word
  ops : Operands
  deriving DecidableEq, Repr

/-- The decode-result registers (10_state.md rule R120). -/
structure DecodeResult where
  len : Word
  chunkType : Word
  dataAddr : Word
  storedCrc : Word
  deriving DecidableEq, Repr

/-- The deframer cursor CUR_ADDR, CUR_REM (10_state.md rules R122, R123). -/
structure Cursor where
  addr : Word
  rem : Word
  deriving DecidableEq, Repr

/-- The output cursor OUT_PTR, OUT_REM, OUT_COUNT (10_state.md rules R125 to R127). -/
structure OutCursor where
  ptr : Word
  rem : Word
  count : Word
  deriving DecidableEq, Repr

/-- Buffer memory: the bytes written since power-up, by strictly rising address (20_memory.md rule R201). -/
abbrev Memory := List Host.Cell

/-- What a read of the host returned (30_encoding.md rule R312, "records the value read"). -/
inductive Observation where
  /-- `RD`: the 32-bit value of a register-port read. -/
  | reg (v : Word)
  /-- `MR`: one byte of buffer memory. -/
  | mem (b : Byte)
  deriving DecidableEq, Repr

/-- Why the machine stops. -/
inductive Fault where
  /-- HOST_RACE (60_exceptions.md rule R931): raised by `hostMemWrite` when the host writes a byte of the in-flight
  command's windows. The spec's own model fault; safe. -/
  | hostRace
  /-- WINDOW_OVERLAP (60_exceptions.md rule R932): raised by FRAME when its data window shares an address with the
  bytes it would write. The spec's own model fault; safe. -/
  | windowOverlap
  /-- Raised by `hostMemRead` and `hostMemWrite` at an address ≥ MEM_SIZE, which does not exist (20_memory.md rule
  R201). The model's own (log entry 6); safe. -/
  | hostOutsideMemory
  deriving DecidableEq, Repr

/-- Why no step is given. -/
inductive Refusal where
  /-- Raised by an arm of `exec` that has no meaning yet; safe. No arm raises it now. -/
  | notModelled (mnemonic : String)
  /-- Raised by `complete` when `exec` is asked with no command in flight: the completion step is enabled exactly
  when BUSY = 1 (40_command.md rule R405). `step` never raises it (log entry 10); safe. -/
  | noCommandInFlight
  deriving DecidableEq, Repr

/-- The whole state. STATUS.BUSY is `latch.isSome` (10_state.md rule R130: LATCH is present exactly while BUSY = 1;
log entry 9). ID, VERSION, TYPE_PROPS, CRC_VALUE, EOS and irq are functions of this record (R131). -/
structure State where
  /-- CTRL[2:0]: bit 0 IE_DONE, bit 1 IE_ERR, bit 2 IE_REJECT (R106). -/
  ctrl : BitVec 3
  /-- STATUS.DONE (R107). -/
  done : Bool
  /-- STATUS.ERR (R107). -/
  err : Bool
  /-- STATUS.REJECT (R107). -/
  reject : Bool
  /-- STATUS.SEQ_STATE (R107, R129). -/
  seq : SeqState
  /-- ERRCODE, ERR_IDX, ERR_ADDR (R109 to R111). -/
  error : ErrorRecord
  /-- SRC_ADDR, SRC_LEN, DST_ADDR, DST_CAP, TYPE, CRC_STATE (R112 to R116, R118). -/
  ops : Operands
  /-- DEC_LEN, DEC_TYPE, DEC_DATA_ADDR, DEC_STORED_CRC (R120). -/
  dec : DecodeResult
  /-- CHUNK_CRC (R121). -/
  chunkCrc : Word
  /-- CUR_ADDR, CUR_REM (R122, R123). -/
  cur : Cursor
  /-- CHUNK_IDX (R124). -/
  chunkIdx : Word
  /-- OUT_PTR, OUT_REM, OUT_COUNT (R125 to R127). -/
  out : OutCursor
  /-- LATCH (R130), and with it STATUS.BUSY. -/
  latch : Option Latch
  /-- The buffer memory (20_memory.md rule R201). -/
  mem : Memory
  /-- MEM_SIZE, fixed for the machine (00_scope.md rule R10); no step changes it. -/
  config : Config
  /-- The model's own: the turns to come, first one next (00_scope.md rule R7; log entry 1). -/
  agenda : List Turn
  /-- The model's own: what the host has read, newest first (log entry 2). -/
  observed : List Observation
  /-- The model's own: how many free bytes have been used (log entry 5). -/
  freeIx : Nat
  deriving DecidableEq, Repr

/-- The operand registers after reset (70_reset_and_hazards.md rule R1001). -/
def Operands.reset : Operands := ⟨0, 0, 0, 0, 0, 0xFFFFFFFF⟩

/-- The state right after reset (70_reset_and_hazards.md rule R1001), with nothing written to memory, nothing on
the agenda, and MEM_SIZE = 0x10000, the value 95_test_vectors.md assumes (DESIGN CHOICE, log entry 3). -/
def State.reset : State where
  ctrl := 0
  done := false
  err := false
  reject := false
  seq := .idle
  error := ErrorRecord.clear
  ops := Operands.reset
  dec := ⟨0, 0, 0, 0⟩
  chunkCrc := 0
  cur := ⟨0, 0⟩
  chunkIdx := 0
  out := ⟨0, 0, 0⟩
  latch := none
  mem := []
  config := ⟨0xFFFF⟩
  agenda := []
  observed := []
  freeIx := 0

end Sys2Proof.Machine
end

