-- ==== Sys2Proof/Machine/Operands.lean ====
section
/-! DEFINITION. Windows and range checks (20_memory.md rules R204, R205), and the windows each command reads and
writes (rule R203), from the latched operands and the engine's cursors (30_encoding.md rule R305). -/

namespace Sys2Proof.Machine

/-- A window (a, n): the n addresses a, a+1, …, a+n−1, on unbounded naturals (20_memory.md rule R204). -/
structure Window where
  base : Nat
  len : Nat
  deriving DecidableEq, Repr

/-- The window contains the address (20_memory.md rule R204; the window (a, 0) contains none). -/
def Window.contains (w : Window) (a : Nat) : Bool := decide (w.base ≤ a) && decide (a < w.base + w.len)

/-- The empty window. -/
def Window.empty : Window := ⟨0, 0⟩

/-- The two windows share an address (43_chunk_codec.md rule R704). -/
def Window.overlaps (v w : Window) : Bool :=
  decide (0 < v.len) && decide (0 < w.len) && decide (v.base < w.base + w.len) && decide (w.base < v.base + v.len)

/-- `inRange(a, n)`: n = 0 or a + n ≤ MEM_SIZE (20_memory.md rule R205). -/
def inRange (c : Config) (w : Window) : Bool := if w.len = 0 then true else decide (w.base + w.len ≤ c.memSize)

/-- The source window (SRC_ADDR, SRC_LEN) (10_state.md rules R112, R113). -/
def Operands.source (o : Operands) : Window := ⟨o.srcAddr.toNat, o.srcLen.toNat⟩

/-- The window (DST_ADDR, DST_CAP) (10_state.md rules R114, R115). -/
def Operands.destination (o : Operands) : Window := ⟨o.dstAddr.toNat, o.dstCap.toNat⟩

/-- The cursor window (CUR_ADDR, CUR_REM) (10_state.md rules R122, R123). -/
def Cursor.window (c : Cursor) : Window := ⟨c.addr.toNat, c.rem.toNat⟩

/-- The output window of `n` bytes at OUT_PTR (10_state.md rule R125). -/
def OutCursor.window (o : OutCursor) (n : Nat) : Window := ⟨o.ptr.toNat, n⟩

/-- The bytes FRAME writes: 12 + SRC_LEN, unbounded (43_chunk_codec.md rule R702). -/
def frameSize (o : Operands) : Nat := 12 + o.srcLen.toNat

/-- The window a command reads (20_memory.md rule R203), its operands those of the latch. -/
def readWindow (i : Instr) (l : Latch) (s : State) : Window :=
  match i with
  | .nop => Window.empty
  | .crcInit => Window.empty
  | .crcByte _ => Window.empty
  | .crcBuf => l.ops.source
  | .typeCheck => Window.empty
  | .frame => l.ops.source
  | .deframe => l.ops.source
  | .seqStart => ⟨l.ops.srcAddr.toNat, min 8 l.ops.srcLen.toNat⟩
  | .seqNext => s.cur.window
  | .outStart => Window.empty
  | .sigEmit => Window.empty

/-- The window a command writes (20_memory.md rule R203). -/
def outputWindow (i : Instr) (l : Latch) (s : State) : Window :=
  match i with
  | .nop => Window.empty
  | .crcInit => Window.empty
  | .crcByte _ => Window.empty
  | .crcBuf => Window.empty
  | .typeCheck => Window.empty
  | .frame => s.out.window (frameSize l.ops)
  | .deframe => Window.empty
  | .seqStart => Window.empty
  | .seqNext => Window.empty
  | .outStart => Window.empty
  | .sigEmit => s.out.window 8

/-- The command in flight, with its latch; none when BUSY = 0 or the latched word is Illegal. -/
def State.inFlight (s : State) : Option (Instr × Latch) :=
  match s.latch with
  | none => none
  | some l =>
    match decode l.word with
    | .ok i => some (i, l)
    | .error _ => none

/-- The address lies in the in-flight command's output window (20_memory.md rule R234). -/
def State.inFlightOutput (s : State) (a : Nat) : Bool :=
  match s.inFlight with
  | none => false
  | some (i, l) => (outputWindow i l s).contains a

/-- The address lies in the in-flight command's read window or output window (60_exceptions.md rule R931). -/
def State.inFlightTouches (s : State) (a : Nat) : Bool :=
  match s.inFlight with
  | none => false
  | some (i, l) => (readWindow i l s).contains a || (outputWindow i l s).contains a

end Sys2Proof.Machine
end

