-- ==== Sys2Proof/Machine/Flags.lean ====
section
/-! DEFINITION. Every flag and derived view: the type property bits (41_chunk_type.md rules R501 to R509), STATUS
(10_state.md rule R107), ERRCODE (R109), TYPE_PROPS (R117), CRC_VALUE (R119) and irq (60_exceptions.md R920). -/

namespace Sys2Proof.Machine

/-- `letter(b)` (41_chunk_type.md rule R501). -/
def letter (b : Byte) : Bool :=
  (decide (0x41 ≤ b.toNat) && decide (b.toNat ≤ 0x5A)) || (decide (0x61 ≤ b.toNat) && decide (b.toNat ≤ 0x7A))

/-- `letters4(w)` (41_chunk_type.md rule R502). -/
def letters4 (w : Word) : Bool := (bytesBe32 w).all letter

/-- CRITICAL: bit 5 of type byte 0 is 0 (41_chunk_type.md rule R504). -/
def critical (w : Word) : Bool := !(wireByte w 0).getLsbD 5

/-- PUBLIC: bit 5 of type byte 1 is 0 (41_chunk_type.md rule R505). -/
def isPublic (w : Word) : Bool := !(wireByte w 1).getLsbD 5

/-- RESERVED_SET: bit 5 of type byte 2 is 1 (41_chunk_type.md rule R506; 90_conflicts.md C1). -/
def reservedSet (w : Word) : Bool := (wireByte w 2).getLsbD 5

/-- SAFE_TO_COPY: bit 5 of type byte 3 is 1 (41_chunk_type.md rule R507). -/
def safeToCopy (w : Word) : Bool := (wireByte w 3).getLsbD 5

/-- CONFORMING: four letters and RESERVED_SET = 0 (41_chunk_type.md rule R508). -/
def conforming (w : Word) : Bool := letters4 w && !reservedSet w

/-- `props(w)`, bitwise for every byte value (41_chunk_type.md rules R503, R509). -/
def props (w : Word) : BitVec 6 :=
  flagAt 6 (conforming w) 5 ||| flagAt 6 (safeToCopy w) 4 ||| flagAt 6 (reservedSet w) 3 |||
    flagAt 6 (isPublic w) 2 ||| flagAt 6 (critical w) 1 ||| flagAt 6 (letters4 w) 0

/-- The two-bit encoding of SEQ_STATE (10_state.md rule R107). -/
def SeqState.code : SeqState → BitVec 2
  | .idle => 0
  | .stream => 1
  | .ended => 2
  | .failed => 3

/-- The four-bit encoding of an error code (60_exceptions.md rule R901). -/
def ErrCode.code : ErrCode → BitVec 4
  | .none => 0
  | .invalidChunkType => 1
  | .invalidSignature => 2
  | .unexpectedEof => 3
  | .crcMismatch => 4
  | .illegalCommand => 5
  | .sequenceError => 6
  | .dstOverflow => 7
  | .busError => 8

/-- STATUS.BUSY: LATCH is present exactly while BUSY = 1 (10_state.md rules R107, R130). -/
def State.busy (s : State) : Bool := s.latch.isSome

/-- STATUS.EOS: SEQ_STATE is END (10_state.md rule R107). -/
def State.eos (s : State) : Bool := s.seq == .ended

/-- STATUS as the host reads it (10_state.md rule R107). -/
def State.status (s : State) : Word :=
  flagAt 32 s.busy 0 ||| flagAt 32 s.done 1 ||| flagAt 32 s.err 2 ||| flagAt 32 s.reject 3 |||
    (s.seq.code.setWidth 32 <<< 4) ||| flagAt 32 s.eos 6

/-- ERRCODE as the host reads it (10_state.md rule R109). -/
def ErrorRecord.errcode (e : ErrorRecord) : Word :=
  (e.opc.setWidth 32 <<< 24) ||| flagAt 32 e.inSeq 8 ||| e.code.code.setWidth 32

/-- TYPE_PROPS: `props(TYPE)` in [5:0], `props(DEC_TYPE)` in [13:8] (10_state.md rule R117). -/
def State.typeProps (s : State) : Word :=
  (props s.ops.chunkType).setWidth 32 ||| ((props s.dec.chunkType).setWidth 32 <<< 8)

/-- CRC_VALUE (10_state.md rule R119). -/
def State.crcValue (s : State) : Word := s.ops.crcState ^^^ 0xFFFFFFFF

/-- CTRL.IE_DONE (10_state.md rule R106). -/
def State.ieDone (s : State) : Bool := s.ctrl.getLsbD 0

/-- CTRL.IE_ERR (10_state.md rule R106). -/
def State.ieErr (s : State) : Bool := s.ctrl.getLsbD 1

/-- CTRL.IE_REJECT (10_state.md rule R106). -/
def State.ieReject (s : State) : Bool := s.ctrl.getLsbD 2

/-- The interrupt output, a level (60_exceptions.md rule R920). -/
def State.irq (s : State) : Bool := (s.done && s.ieDone) || (s.err && s.ieErr) || (s.reject && s.ieReject)

end Sys2Proof.Machine
end

