-- ==== Sys2Proof/Machine/Ops.lean ====
section
/-! DEFINITION. The named operations: buffer memory (20_memory.md rules R201, R214; 00_scope.md R15), the command
lifecycle (40_command.md rules R402 to R405), recording an error (60_exceptions.md rule R905), advancing the output
cursor, the decode commit, and reset (70_reset_and_hazards.md rules R1001 to R1004). -/

namespace Sys2Proof.Machine

/-! ### Buffer memory -/

/-- The byte written at an address, none where nothing was written since power-up. -/
def Memory.lookup : Memory → Nat → Option Byte
  | [], _ => none
  | (k, v) :: m, a => if a = k then some v else if a < k then none else Memory.lookup m a

/-- What an address nothing has written reads as: a free byte of that address (U7; log entry 4). -/
def unlisted (a : Nat) : Byte := Config.powerUpByte a

/-- One byte read (20_memory.md rule R214: the last byte written, or the initial content). -/
def Memory.read (m : Memory) (a : Nat) : Byte := (m.lookup a).getD (unlisted a)

/-- One byte write, keeping the addresses strictly rising (20_memory.md rule R214). -/
def Memory.write : Memory → Nat → Byte → Memory
  | [], a, b => [(a, b)]
  | (k, v) :: m, a, b =>
    if a < k then (a, b) :: (k, v) :: m
    else if a = k then (a, b) :: m
    else (k, v) :: Memory.write m a b

/-- `MemRead(a, n)` (00_scope.md rule R15). -/
def Memory.readBytes (m : Memory) : Nat → Nat → List Byte
  | _, 0 => []
  | a, n + 1 => m.read a :: Memory.readBytes m (a + 1) n

/-- `MemWrite(a, len(s), s)`: byte s[i] to address a+i (00_scope.md rule R15). -/
def Memory.writeBytes : Memory → Nat → List Byte → Memory
  | m, _, [] => m
  | m, a, b :: s => Memory.writeBytes (m.write a b) (a + 1) s

/-- `be32(MemRead(a, 4))`, a u32 field (20_memory.md rule R208). -/
def Memory.readBe32 (m : Memory) (a : Nat) : Word :=
  be32 (m.read a) (m.read (a + 1)) (m.read (a + 2)) (m.read (a + 3))

/-- The canonical form: addresses strictly rise. An unlisted address has no written byte, so no entry can repeat
what it reads as. -/
def Memory.wf : Memory → Bool
  | [] => true
  | [_] => true
  | (k, _) :: (k', v') :: m => decide (k < k') && Memory.wf ((k', v') :: m)

/-- `n` free bytes, from the k-th (U2; log entry 5). -/
def freeBytes : Nat → Nat → List Byte
  | _, 0 => []
  | k, n + 1 => Config.freeByte k :: freeBytes (k + 1) n

/-! ### The command lifecycle -/

/-- Acceptance of `w` (40_command.md rule R403). -/
def State.accept (s : State) (w : Word) : State :=
  { s with done := false, err := false, error := ErrorRecord.clear, latch := some ⟨w, s.ops⟩ }

/-- Rejection (40_command.md rule R404). -/
def State.rejectCommand (s : State) : State := { s with reject := true }

/-- A host write of `w` to CMD: accept or reject (40_command.md rule R402). -/
def State.writeCmd (s : State) (w : Word) : State := if s.busy then s.rejectCommand else s.accept w

/-- An error a command raises (00_scope.md rule R16): what rule R905 of 60_exceptions.md records of it. -/
structure CmdError where
  code : ErrCode
  /-- ERR_ADDR (60_exceptions.md rule R906). -/
  addr : Word
  /-- ERR_IDX, the chunk index if `inSeq`, else 0. -/
  idx : Word := 0
  inSeq : Bool := false
  /-- "and fail the sequence" (44_sequencer.md). -/
  failsSeq : Bool := false
  deriving DecidableEq, Repr

/-- What a command's rule returns (40_command.md rule R401): `Ok(commit)`, with the commit's writes made to the
state, or `raise`; or one of the spec's model faults. -/
inductive CmdResult where
  | ok (s : State)
  | raise (e : CmdError)
  | stop (f : Fault)
  deriving DecidableEq, Repr

/-- A successful completion: DONE <- 1, BUSY <- 0, LATCH <- absent (40_command.md rule R405). -/
def State.succeed (s : State) : State := { s with done := true, latch := none }

/-- `record(e)` of a command whose latched word is `w`, with ERR <- 1, BUSY <- 0, LATCH <- absent
(60_exceptions.md rule R905, 40_command.md rule R405). It is the engine's only exception entry: nothing is saved
but the error record, and there is no return (rules R923, R924). -/
def State.recordError (s : State) (w : Word) (e : CmdError) : State :=
  { s with
    error := ⟨e.code, e.inSeq, w.extractLsb' 24 8, if e.inSeq then e.idx else 0, e.addr⟩
    seq := if e.failsSeq then .failed else s.seq
    err := true
    latch := none }

/-- The completion step for a command's rule (40_command.md rule R405), enabled exactly when BUSY = 1. -/
def complete (s : State) (rule : Latch → CmdResult) : Host.Outcome State Fault Refusal :=
  match s.latch with
  | none => .refused .noCommandInFlight
  | some l =>
    match rule l with
    | .ok t => .next t.succeed
    | .raise e => .next (s.recordError l.word e)
    | .stop f => .fault f

/-! ### Commits shared by several commands -/

/-- CRC_STATE <- c (10_state.md rule R118). -/
def State.setCrcState (s : State) (c : Word) : State := { s with ops := { s.ops with crcState := c } }

/-- A BUS_ERROR at the start of a window (60_exceptions.md rule R906). -/
def busErrorAt (a : Word) : CmdError := { code := .busError, addr := a }

/-- `MemWrite(OUT_PTR, n, bytes)` with OUT_PTR, OUT_REM and OUT_COUNT moved by the n bytes written
(43_chunk_codec.md rule R702, 44_sequencer.md rule R821). -/
def State.emit (s : State) (bytes : List Byte) : State :=
  { s with
    mem := s.mem.writeBytes s.out.ptr.toNat bytes
    out := ⟨s.out.ptr + toReg bytes.length, s.out.rem - toReg bytes.length, s.out.count + toReg bytes.length⟩ }

/-! ### Reset -/

/-- FRAME's three checks in order: type, data window, capacity (43_chunk_codec.md rule R702, 60_exceptions.md rule
R907). -/
def frameCheck (s : State) (l : Latch) : Option CmdError :=
  if !letters4 l.ops.chunkType then some { code := .invalidChunkType, addr := 0 }
  else if !inRange s.config l.ops.source then some (busErrorAt l.ops.srcAddr)
  else if s.out.rem.toNat < frameSize l.ops then some { code := .dstOverflow, addr := s.out.ptr }
  else none

/-- SIG_EMIT's check (44_sequencer.md rule R821). -/
def sigEmitCheck (s : State) : Option CmdError :=
  if s.out.rem.toNat < 8 then some { code := .dstOverflow, addr := s.out.ptr } else none

/-- The window a reset leaves open: the bytes an in-flight SIG_EMIT or FRAME that would have passed its checks
would have written; empty otherwise (70_reset_and_hazards.md rule R1003; log entry 8). -/
def State.abandonedWindow (s : State) : Window :=
  match s.inFlight with
  | some (.frame, l) => if (frameCheck s l).isNone then s.out.window (frameSize l.ops) else Window.empty
  | some (.sigEmit, _) => if (sigEmitCheck s).isNone then s.out.window 8 else Window.empty
  | _ => Window.empty

/-- The reset event: every register at its reset value, the buffer memory as it was but for the abandoned window,
whose bytes hold any value (70_reset_and_hazards.md rules R1001 to R1004). -/
def State.doReset (s : State) : State :=
  { State.reset with
    mem := s.mem.writeBytes s.abandonedWindow.base (freeBytes s.freeIx s.abandonedWindow.len)
    config := s.config
    agenda := s.agenda
    observed := s.observed
    freeIx := s.freeIx + s.abandonedWindow.len }

end Sys2Proof.Machine
end

