-- ==== Sys2Proof/Machine/ChunkCodec.lean ====
section
/-! DEFINITION. The chunk codec: FRAME (43_chunk_codec.md rules R702 to R704), the chunk decoder (rules R711 to
R715) and DEFRAME (rule R720). -/

namespace Sys2Proof.Machine

/-- `crc32(type ++ data)`, the codec's private CRC (20_memory.md rule R210, 42_crc.md rule R606). -/
def codecCrc (chunkType : Word) (data : List Byte) : Word := crc32 (bytesBe32 chunkType ++ data)

/-- The bytes of one chunk: length, type, data, CRC (20_memory.md rule R210). -/
def chunkBytes (len chunkType : Word) (data : List Byte) : List Byte :=
  bytesBe32 len ++ bytesBe32 chunkType ++ data ++ bytesBe32 (codecCrc chunkType data)

/-- `exec_FRAME` (43_chunk_codec.md rule R702); after the three checks an overlap of the data window with the bytes
to write is the model fault WINDOW_OVERLAP (rule R704). -/
def frameRule (s : State) (l : Latch) : CmdResult :=
  match frameCheck s l with
  | some e => .raise e
  | none =>
    if l.ops.source.overlaps (s.out.window (frameSize l.ops)) then .stop .windowOverlap
    else
      let d := s.mem.readBytes l.ops.srcAddr.toNat l.ops.srcLen.toNat
      .ok { s.emit (chunkBytes l.ops.srcLen l.ops.chunkType d) with chunkCrc := codecCrc l.ops.chunkType d }

/-- FRAME (43_chunk_codec.md rule R702). -/
def execFrame (s : State) : Host.Outcome State Fault Refusal := complete s (frameRule s)

/-- What `decode_chunk` returns (43_chunk_codec.md rule R711); addresses and counts on unbounded naturals. -/
structure Chunk where
  len : Word
  chunkType : Word
  dataAddr : Nat
  storedCrc : Word
  crc : Word
  next : Nat
  rem : Nat
  deriving DecidableEq, Repr

/-- `decode_chunk(a, r)` (43_chunk_codec.md rules R711 to R715), every error concerning the address `a`. -/
def decodeChunk (m : Memory) (a r : Nat) : Except ErrCode Chunk :=
  if r < 4 then .error .unexpectedEof
  else
    let len := m.readBe32 a
    if r - 4 < 4 + len.toNat + 4 then .error .unexpectedEof
    else
      let t := m.readBe32 (a + 4)
      if !letters4 t then .error .invalidChunkType
      else
        let stored := m.readBe32 (a + 8 + len.toNat)
        let c := codecCrc t (m.readBytes (a + 8) len.toNat)
        if c ≠ stored then .error .crcMismatch
        else .ok ⟨len, t, a + 8, stored, c, a + 12 + len.toNat, r - (12 + len.toNat)⟩

/-- The decode commit shared by DEFRAME and SEQ_NEXT: the decode-result registers, CHUNK_CRC and the cursor
(43_chunk_codec.md rule R720, 44_sequencer.md rule R811). -/
def State.commitChunk (s : State) (k : Chunk) : State :=
  { s with
    dec := ⟨k.len, k.chunkType, toReg k.dataAddr, k.storedCrc⟩
    chunkCrc := k.crc
    cur := ⟨toReg k.next, toReg k.rem⟩ }

/-- `exec_DEFRAME` (43_chunk_codec.md rule R720). -/
def deframeRule (s : State) (l : Latch) : CmdResult :=
  if !inRange s.config l.ops.source then .raise (busErrorAt l.ops.srcAddr)
  else
    match decodeChunk s.mem l.ops.srcAddr.toNat l.ops.srcLen.toNat with
    | .error e => .raise { code := e, addr := l.ops.srcAddr }
    | .ok k => .ok (s.commitChunk k)

/-- DEFRAME (43_chunk_codec.md rule R720). -/
def execDeframe (s : State) : Host.Outcome State Fault Refusal := complete s (deframeRule s)

end Sys2Proof.Machine
end

