-- ==== Sys2Proof/Machine/ChunkType.lean ====
section
/-! DEFINITION. TYPE_CHECK (41_chunk_type.md rule R510). -/

namespace Sys2Proof.Machine

/-- `exec_TYPE_CHECK` (41_chunk_type.md rule R510). -/
def typeCheckRule (s : State) (l : Latch) : CmdResult :=
  if letters4 l.ops.chunkType then .ok s else .raise { code := .invalidChunkType, addr := 0 }

/-- TYPE_CHECK (41_chunk_type.md rule R510). -/
def execTypeCheck (s : State) : Host.Outcome State Fault Refusal := complete s (typeCheckRule s)

end Sys2Proof.Machine
end

