-- ==== Sys2Proof/Machine/CrcGenerator.lean ====
section
/-! DEFINITION. The commands of the CRC generator: CRC_INIT, CRC_BYTE, CRC_BUF (42_crc.md rules R610 to R612). -/

namespace Sys2Proof.Machine

/-- `exec_CRC_INIT` (42_crc.md rule R610). -/
def crcInitRule (s : State) (_ : Latch) : CmdResult := .ok (s.setCrcState crcOnes)

/-- CRC_INIT (42_crc.md rule R610). -/
def execCrcInit (s : State) : Host.Outcome State Fault Refusal := complete s (crcInitRule s)

/-- `exec_CRC_BYTE` (42_crc.md rule R611): from the latched CRC_STATE. -/
def crcByteRule (imm8 : Byte) (s : State) (l : Latch) : CmdResult := .ok (s.setCrcState (upd l.ops.crcState imm8))

/-- CRC_BYTE imm8 (42_crc.md rule R611). -/
def execCrcByte (imm8 : Byte) (s : State) : Host.Outcome State Fault Refusal := complete s (crcByteRule imm8 s)

/-- `exec_CRC_BUF` (42_crc.md rule R612). -/
def crcBufRule (s : State) (l : Latch) : CmdResult :=
  if !inRange s.config l.ops.source then .raise (busErrorAt l.ops.srcAddr)
  else .ok (s.setCrcState (fold l.ops.crcState (s.mem.readBytes l.ops.srcAddr.toNat l.ops.srcLen.toNat)))

/-- CRC_BUF (42_crc.md rule R612). -/
def execCrcBuf (s : State) : Host.Outcome State Fault Refusal := complete s (crcBufRule s)

end Sys2Proof.Machine
end

