-- ==== Sys2Proof/Machine/Lifecycle.lean ====
section
/-! DEFINITION. NOP (40_command.md rule R410) and the completion of an Illegal word (rule R407). -/

namespace Sys2Proof.Machine

/-- `exec_NOP` (40_command.md rule R410): an empty commit. -/
def nopRule (s : State) (_ : Latch) : CmdResult := .ok s

/-- NOP (40_command.md rule R410). -/
def execNop (s : State) : Host.Outcome State Fault Refusal := complete s (nopRule s)

/-- The completion of an Illegal word: ILLEGAL_COMMAND with ERR_ADDR = ERR_IDX = 0 (40_command.md rule R407). -/
def execIllegal (s : State) : Host.Outcome State Fault Refusal :=
  complete s fun _ => .raise { code := .illegalCommand, addr := 0 }

end Sys2Proof.Machine
end

