-- ==== Sys2Proof/Machine/Sequencer.lean ====
section
/-! DEFINITION. The chunk sequencer: SEQ_START and SEQ_NEXT (44_sequencer.md rules R801 to R815), OUT_START and
SIG_EMIT (rules R820 to R822). -/

namespace Sys2Proof.Machine

/-- The window starts with SIG: at least 8 bytes, and the first 8 are SIG (44_sequencer.md rules R801, R802). -/
def signatureOk (m : Memory) (w : Window) : Bool := if w.len < 8 then false else m.readBytes w.base 8 == sig

/-- `exec_SEQ_START` (44_sequencer.md rules R801 to R803). -/
def seqStartRule (s : State) (l : Latch) : CmdResult :=
  if !inRange s.config l.ops.source then .raise { busErrorAt l.ops.srcAddr with failsSeq := true }
  else if !signatureOk s.mem l.ops.source then
    .raise { code := .invalidSignature, addr := l.ops.srcAddr, failsSeq := true }
  else
    .ok { s with
      cur := ⟨toReg (l.ops.srcAddr.toNat + 8), toReg (l.ops.srcLen.toNat - 8)⟩
      chunkIdx := 0
      seq := .stream }

/-- SEQ_START (44_sequencer.md rule R801). -/
def execSeqStart (s : State) : Host.Outcome State Fault Refusal := complete s (seqStartRule s)

/-- A chunk-decoding error of SEQ_NEXT (44_sequencer.md rule R813): IN_SEQ = 1, the chunk's index and its start
address, and the sequence fails. -/
def chunkErrorAt (c : ErrCode) (s : State) : CmdError :=
  { code := c, addr := s.cur.addr, idx := s.chunkIdx, inSeq := true, failsSeq := true }

/-- A stream is open: SEQ_STATE is STREAM or END (44_sequencer.md rule R815). -/
def SeqState.isOpen : SeqState → Bool
  | .idle => false
  | .stream => true
  | .ended => true
  | .failed => false

/-- `exec_SEQ_NEXT` (44_sequencer.md rules R810 to R815). -/
def seqNextRule (s : State) (_ : Latch) : CmdResult :=
  if !s.seq.isOpen then .raise { code := .sequenceError, addr := 0 }
  else if s.cur.rem = 0 then .ok { s with seq := .ended }
  else if !inRange s.config s.cur.window then .raise (chunkErrorAt .busError s)
  else
    match decodeChunk s.mem s.cur.addr.toNat s.cur.rem.toNat with
    | .error e => .raise (chunkErrorAt e s)
    | .ok k => .ok { s.commitChunk k with chunkIdx := s.chunkIdx + 1, seq := .stream }

/-- SEQ_NEXT (44_sequencer.md rule R810). -/
def execSeqNext (s : State) : Host.Outcome State Fault Refusal := complete s (seqNextRule s)

/-- `exec_OUT_START` (44_sequencer.md rule R820). -/
def outStartRule (s : State) (l : Latch) : CmdResult :=
  if !inRange s.config l.ops.destination then .raise (busErrorAt l.ops.dstAddr)
  else .ok { s with out := ⟨l.ops.dstAddr, l.ops.dstCap, 0⟩ }

/-- OUT_START (44_sequencer.md rule R820). -/
def execOutStart (s : State) : Host.Outcome State Fault Refusal := complete s (outStartRule s)

/-- `exec_SIG_EMIT` (44_sequencer.md rule R821). -/
def sigEmitRule (s : State) (_ : Latch) : CmdResult :=
  match sigEmitCheck s with
  | some e => .raise e
  | none => .ok (s.emit sig)

/-- SIG_EMIT (44_sequencer.md rule R821). -/
def execSigEmit (s : State) : Host.Outcome State Fault Refusal := complete s (sigEmitRule s)

end Sys2Proof.Machine
end

