-- ==== Sys2Proof/Machine/Dispatch.lean ====
section
/-! DEFINITION. The dispatch of 40_command.md rule R411: one arm per command. -/

namespace Sys2Proof.Machine

def exec (i : Instr) (s : State) : Host.Outcome State Fault Refusal :=
  match i with
  | .nop => Sys2Proof.Machine.execNop s
  | .crcInit => Sys2Proof.Machine.execCrcInit s
  | .crcByte imm8 => Sys2Proof.Machine.execCrcByte imm8 s
  | .crcBuf => Sys2Proof.Machine.execCrcBuf s
  | .typeCheck => Sys2Proof.Machine.execTypeCheck s
  | .frame => Sys2Proof.Machine.execFrame s
  | .deframe => Sys2Proof.Machine.execDeframe s
  | .seqStart => Sys2Proof.Machine.execSeqStart s
  | .seqNext => Sys2Proof.Machine.execSeqNext s
  | .outStart => Sys2Proof.Machine.execOutStart s
  | .sigEmit => Sys2Proof.Machine.execSigEmit s

end Sys2Proof.Machine
end

