-- ==== Sys2Proof/Machine/RegisterPort.lean ====
section
/-! DEFINITION. The register port: the register map (10_state.md rule R103), register reads and writes
(20_memory.md rules R220 to R222; 40_command.md rule R408). -/

namespace Sys2Proof.Machine

/-- The register at a byte offset that is a multiple of 4 (10_state.md rule R103); none at a reserved offset (rule
R128) and at any offset that is not a multiple of 4. -/
def regAt (offset : BitVec 7) : Option Reg :=
  match offset.toNat with
  | 0x00 => some .id
  | 0x04 => some .version
  | 0x08 => some .ctrl
  | 0x0C => some .status
  | 0x10 => some .cmd
  | 0x14 => some .errcode
  | 0x18 => some .errIdx
  | 0x1C => some .errAddr
  | 0x20 => some .srcAddr
  | 0x24 => some .srcLen
  | 0x28 => some .dstAddr
  | 0x2C => some .dstCap
  | 0x30 => some .type
  | 0x34 => some .typeProps
  | 0x38 => some .crcState
  | 0x3C => some .crcValue
  | 0x40 => some .decLen
  | 0x44 => some .decType
  | 0x48 => some .decDataAddr
  | 0x4C => some .decStoredCrc
  | 0x50 => some .chunkCrc
  | 0x54 => some .curAddr
  | 0x58 => some .curRem
  | 0x5C => some .chunkIdx
  | 0x60 => some .outPtr
  | 0x64 => some .outRem
  | 0x68 => some .outCount
  | _ => none

/-- The register an access reaches: only a 32-bit access at a multiple of 4 reaches one (30_encoding.md rule R309,
20_memory.md rules R220, R221). -/
def accessed (offset : BitVec 7) (size : AccessSize) : Option Reg :=
  match size with
  | .byte => none
  | .half => none
  | .word => regAt offset

/-- A register's 32-bit value (10_state.md rules R104 to R127). -/
def State.readReg (s : State) : Reg → Word
  | .id => 0x504E4743
  | .version => 0x00010000
  | .ctrl => s.ctrl.setWidth 32
  | .status => s.status
  | .cmd => 0
  | .errcode => s.error.errcode
  | .errIdx => s.error.idx
  | .errAddr => s.error.addr
  | .srcAddr => s.ops.srcAddr
  | .srcLen => s.ops.srcLen
  | .dstAddr => s.ops.dstAddr
  | .dstCap => s.ops.dstCap
  | .type => s.ops.chunkType
  | .typeProps => s.typeProps
  | .crcState => s.ops.crcState
  | .crcValue => s.crcValue
  | .decLen => s.dec.len
  | .decType => s.dec.chunkType
  | .decDataAddr => s.dec.dataAddr
  | .decStoredCrc => s.dec.storedCrc
  | .chunkCrc => s.chunkCrc
  | .curAddr => s.cur.addr
  | .curRem => s.cur.rem
  | .chunkIdx => s.chunkIdx
  | .outPtr => s.out.ptr
  | .outRem => s.out.rem
  | .outCount => s.out.count

/-- A host write to STATUS: DONE, ERR and REJECT are each cleared where the written bit is 1 (10_state.md rule
R107). -/
def State.writeStatus (s : State) (v : Word) : State :=
  { s with
    done := s.done && !v.getLsbD 1
    err := s.err && !v.getLsbD 2
    reject := s.reject && !v.getLsbD 3 }

/-- A host write of `v` to a register, as its access type allows (20_memory.md rule R220; 10_state.md rules R103,
R106, R107, R108). -/
def State.writeReg (s : State) (v : Word) : Reg → State
  | .id => s
  | .version => s
  | .ctrl => { s with ctrl := v.setWidth 3 }
  | .status => s.writeStatus v
  | .cmd => s.writeCmd v
  | .errcode => s
  | .errIdx => s
  | .errAddr => s
  | .srcAddr => { s with ops := { s.ops with srcAddr := v } }
  | .srcLen => { s with ops := { s.ops with srcLen := v } }
  | .dstAddr => { s with ops := { s.ops with dstAddr := v } }
  | .dstCap => { s with ops := { s.ops with dstCap := v } }
  | .type => { s with ops := { s.ops with chunkType := v } }
  | .typeProps => s
  | .crcState => s.setCrcState v
  | .crcValue => s
  | .decLen => s
  | .decType => s
  | .decDataAddr => s
  | .decStoredCrc => s
  | .chunkCrc => s
  | .curAddr => s
  | .curRem => s
  | .chunkIdx => s
  | .outPtr => s
  | .outRem => s
  | .outCount => s

/-- The value a register-port read returns; 0 where it reaches no register (20_memory.md rules R220, R221). -/
def State.portRead (s : State) (offset : BitVec 7) (size : AccessSize) : Word :=
  match accessed offset size with
  | some r => s.readReg r
  | none => 0

/-- A register-port write; nothing where it reaches no register (20_memory.md rules R220, R221). -/
def State.portWrite (s : State) (offset : BitVec 7) (size : AccessSize) (v : Word) : State :=
  match accessed offset size with
  | some r => s.writeReg v r
  | none => s

end Sys2Proof.Machine
end

