-- ==== Sys2Proof/Machine/HostAgent.lean ====
section
/-! DEFINITION. The host's steps (00_scope.md rule R7 (a)): register accesses and byte accesses to the buffer
memory, with the race rules (20_memory.md rules R233 to R235). -/

namespace Sys2Proof.Machine

/-- The host records what a read returned (30_encoding.md rule R312). -/
def State.observe (s : State) (o : Observation) : State := { s with observed := o :: s.observed }

/-- The address exists: it is below MEM_SIZE (20_memory.md rule R201). -/
def State.hasAddress (s : State) (a : Word) : Bool := decide (a.toNat < s.config.memSize)

/-- The host reads one byte of buffer memory: any value in an in-flight output window (20_memory.md rule R234),
the memory's byte elsewhere (rule R235). -/
def hostMemRead (a : Word) (s : State) : Host.Outcome State Fault Refusal :=
  if !s.hasAddress a then .fault .hostOutsideMemory
  else if s.inFlightOutput a.toNat then
    .next { s.observe (.mem (Config.freeByte s.freeIx)) with freeIx := s.freeIx + 1 }
  else .next (s.observe (.mem (s.mem.read a.toNat)))

/-- The host writes one byte of buffer memory: HOST_RACE in an in-flight window (60_exceptions.md rule R931),
ordinary elsewhere (20_memory.md rule R235). -/
def hostMemWrite (a : Word) (b : Byte) (s : State) : Host.Outcome State Fault Refusal :=
  if s.inFlightTouches a.toNat then .fault .hostRace
  else if !s.hasAddress a then .fault .hostOutsideMemory
  else .next { s with mem := s.mem.write a.toNat b }

/-- One step of the host. -/
def hostStep (h : HostStep) (s : State) : Host.Outcome State Fault Refusal :=
  match h with
  | .portRead offset size => .next (s.observe (.reg (s.portRead offset size)))
  | .portWrite offset size v => .next (s.portWrite offset size v)
  | .memRead a => hostMemRead a s
  | .memWrite a b => hostMemWrite a b s

end Sys2Proof.Machine
end

