-- ==== Sys2Proof/Machine/Engine.lean ====
section
/-! DEFINITION. What each agent does with its turn (00_scope.md rule R7): the engine's completion step (40_command.md
rule R405), a host access, the reset event. -/

namespace Sys2Proof.Machine

/-- The engine's turn (40_command.md rule R405): with a command in flight, its completion; with none, nothing
(60_exceptions.md rule R945; log entry 13). -/
def engineTurn (s : State) : Host.Outcome State Fault Refusal :=
  match s.latch with
  | none => .next s
  | some l =>
    match decode l.word with
    | .ok i => exec i s
    | .error _ => execIllegal s

/-- One turn (00_scope.md rule R7). -/
def takeTurn (t : Turn) (s : State) : Host.Outcome State Fault Refusal :=
  match t with
  | .engine => engineTurn s
  | .host h => hostStep h s
  | .reset => .next s.doReset

/-- The turn the agenda gives: its first, and the engine's when it is empty (00_scope.md rule R7, weak fairness; log
entry 1). -/
def State.nextTurn (s : State) : Turn := s.agenda.head?.getD .engine

/-- The state with its next turn taken off the agenda. -/
def State.popTurn (s : State) : State := { s with agenda := s.agenda.tail }

/-- The command word `w` accepted as by a CMD write with BUSY = 0 (40_command.md rule R403), and the engine's turn
first on the agenda (log entry 11). -/
def State.issue (s : State) (w : Word) : State := { s.accept w with agenda := .engine :: s.agenda }

end Sys2Proof.Machine
end

