-- ==== Sys2Proof/Machine/HostProgram.lean ====
section
/-! DEFINITION. The host-program operations and pseudo-instructions (30_encoding.md rules R312, R313) as lists of
turns. The one pseudo-instruction whose turns depend on what the host reads, `DECODE_FILE`, is in HostRun.lean. -/

namespace Sys2Proof.Machine

/-- The byte offset of a register (10_state.md rule R103). -/
def offsetOf : Reg → BitVec 7
  | .id => 0x00
  | .version => 0x04
  | .ctrl => 0x08
  | .status => 0x0C
  | .cmd => 0x10
  | .errcode => 0x14
  | .errIdx => 0x18
  | .errAddr => 0x1C
  | .srcAddr => 0x20
  | .srcLen => 0x24
  | .dstAddr => 0x28
  | .dstCap => 0x2C
  | .type => 0x30
  | .typeProps => 0x34
  | .crcState => 0x38
  | .crcValue => 0x3C
  | .decLen => 0x40
  | .decType => 0x44
  | .decDataAddr => 0x48
  | .decStoredCrc => 0x4C
  | .chunkCrc => 0x50
  | .curAddr => 0x54
  | .curRem => 0x58
  | .chunkIdx => 0x5C
  | .outPtr => 0x60
  | .outRem => 0x64
  | .outCount => 0x68

/-- `WR <REG>, <value>` (30_encoding.md rule R312). -/
def wr (r : Reg) (v : Word) : List Turn := [.host (.portWrite (offsetOf r) .word v)]

/-- `RD <REG>` (30_encoding.md rule R312). -/
def rd (r : Reg) : List Turn := [.host (.portRead (offsetOf r) .word)]

/-- `MW <addr>, <b0> <b1> ...`, "from addr upward" (30_encoding.md rule R312). DESIGN CHOICE: the address after
0xFFFFFFFF is 0, of which the rule says nothing (log entry 19). -/
def mw : Word → List Byte → List Turn
  | _, [] => []
  | a, b :: s => .host (.memWrite a b) :: mw (a + 1) s

/-- `MR <addr>, <n>` (30_encoding.md rule R312). DESIGN CHOICE: in rising order, and the address after 0xFFFFFFFF is
0, of which the rule says nothing (log entry 19). -/
def mr : Word → Nat → List Turn
  | _, 0 => []
  | a, n + 1 => .host (.memRead a) :: mr (a + 1) n

/-- `POLL` (30_encoding.md rule R313): `busyReads` reads of STATUS that find BUSY = 1, the engine's turn, which ends the
loop (00_scope.md rule R7), and the read that finds BUSY = 0. How many reads come first is free (rule R8). -/
def poll (busyReads : Nat) : List Turn := (List.replicate busyReads (rd .status)).flatten ++ .engine :: rd .status

/-- `DO <MNEMONIC> [imm8]` (30_encoding.md rule R313). -/
def doCommand (i : Instr) (busyReads : Nat) : List Turn := wr .cmd (encode i) ++ poll busyReads

/-- `SETSRC a, n` (30_encoding.md rule R313). -/
def setSrc (a n : Word) : List Turn := wr .srcAddr a ++ wr .srcLen n

/-- `SETDST a, n` (30_encoding.md rule R313). -/
def setDst (a n : Word) : List Turn := wr .dstAddr a ++ wr .dstCap n

/-- `CRC_TYPE` for a type's four bytes in wire order (30_encoding.md rule R313); `busyReads k` is the busy reads of the
k-th `DO`. -/
def crcType (t : Word) (busyReads : Nat → Nat) : List Turn :=
  doCommand (.crcByte (wireByte t 0)) (busyReads 0) ++ doCommand (.crcByte (wireByte t 1)) (busyReads 1) ++
    doCommand (.crcByte (wireByte t 2)) (busyReads 2) ++ doCommand (.crcByte (wireByte t 3)) (busyReads 3)

/-- The reads of the decode-result registers (30_encoding.md rule R313, 10_state.md rule R120). DESIGN CHOICE: their
order, of which the rule says nothing (log entry 20). -/
def readResults : List Turn := rd .decLen ++ rd .decType ++ rd .decDataAddr ++ rd .decStoredCrc

/-- One chunk of a host's list: its type, and its data window. -/
structure HostChunk where
  chunkType : Word
  addr : Word
  len : Word
  deriving DecidableEq, Repr

/-- The chunks of `ENCODE_FILE` from the k-th `DO` on (30_encoding.md rule R313). -/
def encodeChunks (busyReads : Nat → Nat) : Nat → List HostChunk → List Turn
  | _, [] => []
  | k, c :: cs =>
    wr .type c.chunkType ++ setSrc c.addr c.len ++ doCommand .frame (busyReads k) ++ encodeChunks busyReads (k + 1) cs

/-- `ENCODE_FILE d, cap` for the host's list of chunks (30_encoding.md rule R313, 44_sequencer.md rule R823). -/
def encodeFile (d cap : Word) (chunks : List HostChunk) (busyReads : Nat → Nat) : List Turn :=
  setDst d cap ++ doCommand .outStart (busyReads 0) ++ doCommand .sigEmit (busyReads 1) ++
    encodeChunks busyReads 2 chunks

end Sys2Proof.Machine
end

