-- ==== Sys2Proof/Machine/Step.lean ====
section
/-! DEFINITION. One step of the system (00_scope.md rule R7): the next turn of the agenda is taken. -/

namespace Sys2Proof.Machine

/-- One step: who moves is plain data in the state (log entry 1). -/
def step (s : State) : Host.Outcome State Fault Refusal := takeTurn s.nextTurn s.popTurn

/-- The state in which the very next step completes the command word whose bits are `w`, those above `nbits` being
0 (log entry 11). -/
def State.withFetchWord (s : State) (nbits w : Nat) : State := s.issue (BitVec.ofNat 32 (w % 2 ^ nbits))

end Sys2Proof.Machine
end

