-- ==== Sys2Proof/Safety.lean ====
section
/-! DEFINITION. What the rules say of every state: the invariants of the machine, in the terms the claims use. -/

namespace Sys2Proof.Machine

/-- The cursor invariant: CUR_REM = 0 or CUR_ADDR + CUR_REM ≤ MEM_SIZE (44_sequencer.md rule R814). -/
abbrev State.CursorInv (s : State) : Prop :=
  s.cur.rem = 0 ∨ s.cur.addr.toNat + s.cur.rem.toNat ≤ s.config.memSize

/-- The output invariant: OUT_REM = 0 or OUT_PTR + OUT_REM ≤ MEM_SIZE (44_sequencer.md rule R822). -/
abbrev State.OutputInv (s : State) : Prop :=
  s.out.rem = 0 ∨ s.out.ptr.toNat + s.out.rem.toNat ≤ s.config.memSize

/-- The buffer memory holds bytes at addresses below MEM_SIZE only, in the canonical form (20_memory.md rules R201,
R206). -/
abbrev State.MemoryInv (s : State) : Prop :=
  s.mem.wf = true ∧ ∀ c ∈ s.mem, c.1 < s.config.memSize

/-- The invariant of the machine: what holds at reset and what every step keeps. -/
structure State.Inv (s : State) : Prop where
  memory : s.MemoryInv
  cursor : s.CursorInv
  output : s.OutputInv
  /-- OUT_COUNT never wraps (10_state.md rule R127). -/
  outCount : s.out.count.toNat + s.out.rem.toNat < 2 ^ 32
  /-- DONE and ERR are never both 1 (10_state.md rule R107). -/
  doneOrErr : (s.done && s.err) = false
  /-- While BUSY = 1, DONE, ERR and the error record are clear (40_command.md rule R403). -/
  inFlightClear : s.busy = true → s.done = false ∧ s.err = false ∧ s.error = ErrorRecord.clear
  /-- ERR = 1 comes with a non-zero code (60_exceptions.md rule R904). -/
  errHasCode : s.err = true → s.error.code ≠ .none
  /-- ERR_IDX is 0 whenever IN_SEQ = 0 (60_exceptions.md rule R905). -/
  idxOnlyInSeq : s.error.inSeq = false → s.error.idx = 0
  /-- IN_SEQ = 1 only for an error of SEQ_NEXT that failed the sequence (60_exceptions.md rule R905). -/
  inSeqOfSeqNext : s.error.inSeq = true → s.error.opc = 0x21 ∧ s.seq = .failed
  /-- In IDLE no chunk of a stream has been decoded (10_state.md rules R124, R129). -/
  idleIndex : s.seq = .idle → s.chunkIdx = 0
  /-- The decode results are those of reset, or a chunk of letters whose data and CRC field lie in memory
  (10_state.md rule R120, 43_chunk_codec.md rule R711). -/
  decoded : s.dec = ⟨0, 0, 0, 0⟩ ∨
    (letters4 s.dec.chunkType = true ∧ s.dec.dataAddr.toNat + s.dec.len.toNat + 4 ≤ s.config.memSize)

/-- The data bytes from `a`, one read per address (43_chunk_codec.md rule R711, "verbatim"). -/
def dataAt (m : Memory) (a n : Nat) : List Byte := (List.range n).map fun k => m.read (a + k)

/-- The CRC-32 of type ++ data, from its definition (20_memory.md rule R210, 42_crc.md rule R604). -/
def crcOf (chunkType : Word) (data : List Byte) : Word := crc32 (bytesBe32 chunkType ++ data)

/-- A complete chunk with a letter type and a matching CRC stands at `a`, within `r` bytes (43_chunk_codec.md rule
R711). -/
abbrev goodChunkAt (m : Memory) (a r : Nat) : Prop :=
  12 + (m.readBe32 a).toNat ≤ r ∧ letters4 (m.readBe32 (a + 4)) = true ∧
    crcOf (m.readBe32 (a + 4)) (dataAt m (a + 8) (m.readBe32 a).toNat) =
      m.readBe32 (a + 8 + (m.readBe32 a).toNat)

/-- The state a failed command leaves: ERR = 1, BUSY = 0, the error record, and nothing else but SEQ_STATE
(60_exceptions.md rules R905, R908). -/
def State.failedWith (s : State) (e : ErrorRecord) (q : SeqState) : State :=
  { s with err := true, latch := none, error := e, seq := q }

/-- It is the engine's turn. -/
abbrev State.engineMoves (s : State) : Prop := s.nextTurn = .engine

end Sys2Proof.Machine
end

