-- ==== Sys2Proof/Certificates/Slice0/Obligations.lean ====
section
/-! DEFINITION. The statements about the PNGCRC engine, from the numbered rules of spec/. A step is stated by the turn it
takes (`State.nextTurn`), `State.popTurn` being the state with that turn taken off the agenda (log entry 1). -/

open Sys2Proof Sys2Proof.Machine

/-! ### Encoding -/

/-- 30_encoding.md sections 1 and 2: decoding and encoding agree on every word and every command, so no bit of a
word is dropped. -/
def Obligations.DecodeInvertsEncode : Prop :=
  ∀ (w : Word) (i : Instr), decode w = .ok i ↔ w = encode i

/-- 30_encoding.md rule R304: the words of the opcode map, written out, decode to their commands. -/
def Obligations.SpecWordsDecode : Prop :=
  decode 0x00000000 = .ok .nop ∧ decode 0x01000000 = .ok .crcInit ∧ decode 0x02000072 = .ok (.crcByte 0x72) ∧
    decode 0x03000000 = .ok .crcBuf ∧ decode 0x04000000 = .ok .typeCheck ∧ decode 0x10000000 = .ok .frame ∧
    decode 0x11000000 = .ok .deframe ∧ decode 0x20000000 = .ok .seqStart ∧ decode 0x21000000 = .ok .seqNext ∧
    decode 0x30000000 = .ok .outStart ∧ decode 0x31000000 = .ok .sigEmit

/-- 30_encoding.md rules R306 and R307: which words are Illegal, and by which check, in the order of the decoder. -/
def Obligations.IllegalWordsAreRejectedByName : Prop :=
  ∀ w : Word,
    if assignedOpcodes.contains (w.extractLsb' 24 8) = false then
      decode w = .error (.unassignedOpcode (w.extractLsb' 24 8))
    else if w.extractLsb' 8 16 ≠ 0 then decode w = .error .reservedField
    else if w.extractLsb' 24 8 ≠ 0x02 ∧ w.extractLsb' 0 8 ≠ 0 then decode w = .error .strayImmediate
    else ∃ i, decode w = .ok i ∧ i.opcode = w.extractLsb' 24 8 ∧ i.immediate = w.extractLsb' 0 8

/-- 30_encoding.md rule R304: at most one row of the opcode map matches any word, a word is a command exactly when a
row matches it, and the row is its command's. -/
def Obligations.OpcodeMapSelectsOneRow : Prop :=
  (∀ w : Word, (opcodeTable.filter fun r => r.selects w).length ≤ 1) ∧
    (∀ w : Word, (∃ i, decode w = .ok i) ↔ ∃ r ∈ opcodeTable, r.selects w = true) ∧
    ∀ (w : Word) (i : Instr) (r : TableRow), decode w = .ok i → r ∈ opcodeTable → r.selects w = true →
      r.pattern.extractLsb' 24 8 = i.opcode

/-! ### Reset -/

/-- 70_reset_and_hazards.md rule R1001: every register as the host reads it after reset, offset by offset from 0x00 to
0x7C (10_state.md rule R103), LATCH absent and irq = 0. -/
def Obligations.ResetRegisterValues : Prop :=
  ((List.range 32).map fun k => State.reset.portRead (BitVec.ofNat 7 (4 * k)) .word) =
      [0x504E4743, 0x00010000, 0, 0, 0, 0, 0, 0, 0, 0, 0, 0, 0, 0x00000606, 0xFFFFFFFF, 0,
       0, 0, 0, 0, 0, 0, 0, 0, 0, 0, 0, 0, 0, 0, 0, 0] ∧
    State.reset.latch = none ∧ State.reset.irq = false ∧ State.reset.busy = false ∧ State.reset.seq = .idle

/-- 44_sequencer.md rules R814, R822 and the rules State.Inv names: the machine's invariant holds at reset. -/
def Obligations.ResetMeetsTheInvariant : Prop := State.reset.Inv

/-- 70_reset_and_hazards.md rules R1002 to R1004: reset in any state leaves every register at its reset value, and the
buffer memory as it was, but for the output window of an in-flight SIG_EMIT or FRAME that would have passed its
checks. R1003 says "would have passed its checks" of FRAME only; that memory is unchanged also with a SIG_EMIT in flight
that has fewer than 8 bytes of room is the model's reading (DEDUCED, log entry 8). -/
def Obligations.ResetEventFromAnyState : Prop :=
  ∀ s : State, s.nextTurn = .reset →
    ∃ t, step s = .next t ∧
      t = { State.reset with
        mem := t.mem, config := s.config, agenda := s.agenda.tail, observed := s.observed, freeIx := t.freeIx } ∧
      (s.inFlight = none → t.mem = s.mem) ∧
      ∀ i l, s.inFlight = some (i, l) →
        (i ≠ .frame → i ≠ .sigEmit → t.mem = s.mem) ∧
        (∀ u, exec i s = .next u → s.err = false → u.err = true → t.mem = s.mem) ∧
        ∀ a, (outputWindow i l s).contains a = false → t.mem.read a = s.mem.read a

/-! ### The command lifecycle -/

/-- 40_command.md rules R402 to R404: a 32-bit write of w to CMD (offset 0x10) accepts w when BUSY = 0 and rejects it
when BUSY = 1, with exactly these effects, and no other register write issues a command. -/
def Obligations.CmdWriteAcceptsOrRejects : Prop :=
  ∀ s : State,
    (∀ w, s.nextTurn = .host (.portWrite 0x10 .word w) → s.busy = false →
      step s = .next { s.popTurn with
        done := false
        err := false
        error := ⟨.none, false, 0, 0, 0⟩
        latch := some ⟨w, ⟨s.ops.srcAddr, s.ops.srcLen, s.ops.dstAddr, s.ops.dstCap, s.ops.chunkType,
          s.ops.crcState⟩⟩ }) ∧
    (∀ w, s.nextTurn = .host (.portWrite 0x10 .word w) → s.busy = true →
      step s = .next { s.popTurn with reject := true }) ∧
    ∀ offset size w t, s.nextTurn = .host (.portWrite offset size w) → (offset ≠ 0x10 ∨ size ≠ .word) →
      step s = .next t → t.latch = s.latch

/-- 40_command.md rule R405, the link from a step to the per-command statements: on the engine's turn a step is `exec`
of the command the latched word decodes to, at the state with the turn taken off the agenda; and with no command in
flight the engine does nothing (60_exceptions.md rule R945; the turn without a command is the model's stutter, log
entry 13). -/
def Obligations.EngineStepRunsTheLatchedCommand : Prop :=
  (∀ (s : State) (l : Latch) (i : Instr), s.engineMoves → s.latch = some l → decode l.word = .ok i →
    step s = exec i s.popTurn) ∧
  ∀ s : State, s.engineMoves → s.latch = none → step s = .next s.popTurn

/-- 40_command.md rule R407: an Illegal word completes as ILLEGAL_COMMAND and changes nothing but STATUS and
ERRCODE. -/
def Obligations.IllegalWordCompletes : Prop :=
  ∀ (s : State) (l : Latch) (r : IllegalWord), s.engineMoves → s.latch = some l → decode l.word = .error r →
    step s = .next (s.popTurn.failedWith ⟨.illegalCommand, false, l.word.extractLsb' 24 8, 0, 0⟩ s.seq)

/-- 40_command.md rule R405 and 60_exceptions.md rule R922: a completion clears BUSY and sets exactly one of DONE and
ERR. -/
def Obligations.CompletionSetsExactlyOneFlag : Prop :=
  ∀ (i : Instr) (s t : State), s.done = false → s.err = false → exec i s = .next t →
    t.busy = false ∧ t.done = !t.err

/-- 40_command.md rule R406 and 60_exceptions.md rule R908: after a failed command the state is the state before it but
for STATUS, the error record and, where the command fails the sequence, SEQ_STATE. -/
def Obligations.FailureIsPrecise : Prop :=
  ∀ (i : Instr) (s t : State), s.done = false → s.err = false → exec i s = .next t → t.err = true →
    t = s.failedWith t.error t.seq ∧ t.done = false ∧ t.busy = false ∧ t.error.code ≠ .none ∧
      t.seq = if i = .seqStart ∨ (i = .seqNext ∧ t.error.inSeq = true) then .failed else s.seq

/-- 00_scope.md rule R21: two states that differ in buffer memory only, and not in the bytes of the command's read
window, give the same outcome: the same registers, the same bytes written, and every other byte as each had it. The rule is
an inference of the spec from rules R405 and R230. -/
def Obligations.ResultDependsOnlyOnTheReadWindow : Prop :=
  ∀ (i : Instr) (s : State) (l : Latch) (m : Memory), s.latch = some l →
    (∀ a, (readWindow i l s).contains a = true → m.read a = s.mem.read a) →
    match exec i s, exec i { s with mem := m } with
    | .next t, .next u =>
      u = { t with mem := u.mem } ∧
        ((t.mem = s.mem ∧ u.mem = m) ∨
          ∀ a, u.mem.read a = if (outputWindow i l s).contains a then t.mem.read a else m.read a)
    | .fault f, .fault g => f = g
    | .refused r, .refused q => r = q
    | _, _ => False

/-- 40_command.md rule R408 and 70_reset_and_hazards.md rule R1012: host writes to the operand registers while a command
is in flight do not change its result: the completion from the rewritten registers is the same, those registers keep
what the host wrote, and CRC_STATE is the committed value where the command is a CRC command that succeeds. -/
def Obligations.OperandWritesDoNotReachTheCommand : Prop :=
  ∀ (i : Instr) (s t : State) (o : Operands), s.done = false → exec i s = .next t →
    exec i { s with ops := o } = .next { t with
      ops := if t.done = true ∧ (i = .crcInit ∨ i = .crcBuf ∨ ∃ b, i = .crcByte b)
        then { o with crcState := t.ops.crcState } else o }

/-! ### The register port and the host's memory accesses -/

/-- 20_memory.md rule R222: a register read changes nothing of the machine (only the model's own record of what the host
has read, log entry 2). -/
def Obligations.RegisterReadHasNoSideEffect : Prop :=
  ∀ (s : State) (offset : BitVec 7) (size : AccessSize), s.nextTurn = .host (.portRead offset size) →
    ∃ t, step s = .next t ∧ t = { s.popTurn with observed := t.observed }

/-- 10_state.md rules R103 to R128: what a 32-bit read at each offset returns to the host, as the model records it (log
entry 2). -/
def Obligations.RegisterReadReturnsTheRegister : Prop :=
  ∀ (s : State) (k : Nat), k < 32 → s.nextTurn = .host (.portRead (BitVec.ofNat 7 (4 * k)) .word) →
    step s = .next { s.popTurn with observed := .reg (
      [0x504E4743, 0x00010000, s.ctrl.setWidth 32, s.status, 0, s.error.errcode, s.error.idx, s.error.addr,
       s.ops.srcAddr, s.ops.srcLen, s.ops.dstAddr, s.ops.dstCap, s.ops.chunkType, s.typeProps, s.ops.crcState,
       s.ops.crcState ^^^ 0xFFFFFFFF, s.dec.len, s.dec.chunkType, s.dec.dataAddr, s.dec.storedCrc, s.chunkCrc,
       s.cur.addr, s.cur.rem, s.chunkIdx, s.out.ptr, s.out.rem, s.out.count].getD k 0) :: s.observed }

/-- 20_memory.md rule R221: a byte or half-word access, or one at an offset that is not a multiple of 4, writes nothing,
reads 0, and has no error response. -/
def Obligations.NarrowOrUnalignedAccessReachesNothing : Prop :=
  ∀ (s : State) (offset : BitVec 7) (size : AccessSize), (size ≠ .word ∨ offset.toNat % 4 ≠ 0) →
    (∀ v, s.nextTurn = .host (.portWrite offset size v) → step s = .next s.popTurn) ∧
      s.portRead offset size = 0 ∧
      (s.nextTurn = .host (.portRead offset size) →
        step s = .next { s.popTurn with observed := .reg 0 :: s.observed })

/-- 20_memory.md rule R220, 10_state.md rules R106, R112 to R116 and R118: a 32-bit write to a read-write register stores
its writable bits and changes nothing else, also while BUSY = 1; and on the host's turn with a 32-bit write at any
offset but CMD's, the step is that write. -/
def Obligations.ReadWriteRegistersStore : Prop :=
  ∀ (s : State) (v : Word),
    (∀ offset : BitVec 7, offset ≠ 0x10 → s.nextTurn = .host (.portWrite offset .word v) →
      step s = .next (s.popTurn.portWrite offset .word v)) ∧
    s.portWrite 0x08 .word v = { s with ctrl := v.extractLsb' 0 3 } ∧
    s.portWrite 0x20 .word v = { s with ops := { s.ops with srcAddr := v } } ∧
    s.portWrite 0x24 .word v = { s with ops := { s.ops with srcLen := v } } ∧
    s.portWrite 0x28 .word v = { s with ops := { s.ops with dstAddr := v } } ∧
    s.portWrite 0x2C .word v = { s with ops := { s.ops with dstCap := v } } ∧
    s.portWrite 0x30 .word v = { s with ops := { s.ops with chunkType := v } } ∧
    s.portWrite 0x38 .word v = { s with ops := { s.ops with crcState := v } }

/-- 10_state.md rules R103 and R128: a 32-bit write to any other offset but STATUS and CMD is ignored, and the reserved
offsets read 0. -/
def Obligations.OtherOffsetsIgnoreWrites : Prop :=
  ∀ (s : State) (offset : BitVec 7) (v : Word),
    (offset ∉ [0x08#7, 0x0C#7, 0x10#7, 0x20#7, 0x24#7, 0x28#7, 0x2C#7, 0x30#7, 0x38#7] →
      s.portWrite offset .word v = s ∧
        (s.nextTurn = .host (.portWrite offset .word v) → step s = .next s.popTurn)) ∧
    (offset ∈ [0x6C#7, 0x70#7, 0x74#7, 0x78#7, 0x7C#7] →
      s.portWrite offset .word v = s ∧ s.portRead offset .word = 0)

/-- 10_state.md rule R107: the fields of STATUS as the host reads them, and what a host write to STATUS changes. -/
def Obligations.StatusFieldsAndWrites : Prop :=
  ∀ s : State,
    (s.status.getLsbD 0 = s.busy ∧ s.status.getLsbD 1 = s.done ∧ s.status.getLsbD 2 = s.err ∧
      s.status.getLsbD 3 = s.reject ∧
      s.status.extractLsb' 4 2 = (match s.seq with | .idle => 0 | .stream => 1 | .ended => 2 | .failed => 3) ∧
      (s.status.getLsbD 6 = true ↔ s.seq = .ended) ∧ s.status.extractLsb' 7 25 = 0) ∧
    ∀ v : Word,
      s.portWrite 0x0C .word v = { s with
        done := if v.getLsbD 1 then false else s.done
        err := if v.getLsbD 2 then false else s.err
        reject := if v.getLsbD 3 then false else s.reject } ∧
      (s.nextTurn = .host (.portWrite 0x0C .word v) → step s = .next { s.popTurn with
        done := if v.getLsbD 1 then false else s.done
        err := if v.getLsbD 2 then false else s.err
        reject := if v.getLsbD 3 then false else s.reject })

/-- 10_state.md rule R109: the fields of ERRCODE. -/
def Obligations.ErrcodeFields : Prop :=
  ∀ e : ErrorRecord,
    e.errcode.extractLsb' 0 4 = (match e.code with
      | .none => 0 | .invalidChunkType => 1 | .invalidSignature => 2 | .unexpectedEof => 3 | .crcMismatch => 4
      | .illegalCommand => 5 | .sequenceError => 6 | .dstOverflow => 7 | .busError => 8) ∧
    e.errcode.extractLsb' 4 4 = 0 ∧ e.errcode.getLsbD 8 = e.inSeq ∧ e.errcode.extractLsb' 9 15 = 0 ∧
    e.errcode.extractLsb' 24 8 = e.opc

/-- 10_state.md rule R117: the fields of TYPE_PROPS. -/
def Obligations.TypePropsFields : Prop :=
  ∀ s : State,
    s.typeProps.extractLsb' 0 6 = props s.ops.chunkType ∧ s.typeProps.extractLsb' 6 2 = 0 ∧
      s.typeProps.extractLsb' 8 6 = props s.dec.chunkType ∧ s.typeProps.extractLsb' 14 18 = 0

/-- 41_chunk_type.md rules R501 to R507: letters, and the six property bits of every packed type, from the bits of the
packed word (type byte 0 in [31:24]). The letter codes are the spec's general knowledge (log entry 15), the polarity of
the reserved bit is that of 90_conflicts.md C1. -/
def Obligations.TypePropertyBits : Prop :=
  (∀ b : Byte, letter b = true ↔
    (0x41 ≤ b.toNat ∧ b.toNat ≤ 0x5A) ∨ (0x61 ≤ b.toNat ∧ b.toNat ≤ 0x7A)) ∧
  ∀ w : Word,
    (letters4 w = true ↔ letter (w.extractLsb' 24 8) = true ∧ letter (w.extractLsb' 16 8) = true ∧
      letter (w.extractLsb' 8 8) = true ∧ letter (w.extractLsb' 0 8) = true) ∧
    (props w).getLsbD 0 = letters4 w ∧
    (props w).getLsbD 1 = !w.getLsbD 29 ∧
    (props w).getLsbD 2 = !w.getLsbD 21 ∧
    (props w).getLsbD 3 = w.getLsbD 13 ∧
    (props w).getLsbD 4 = w.getLsbD 5 ∧
    (props w).getLsbD 5 = (letters4 w && !w.getLsbD 13)

/-- 60_exceptions.md rule R920: irq is a level, a function of STATUS and CTRL, and 0 at reset. -/
def Obligations.IrqIsTheEnabledStatus : Prop :=
  (∀ s : State, s.irq = ((s.status.getLsbD 1 && s.ctrl.getLsbD 0) || (s.status.getLsbD 2 && s.ctrl.getLsbD 1) ||
    (s.status.getLsbD 3 && s.ctrl.getLsbD 2))) ∧
  State.reset.irq = false

/-- 60_exceptions.md rule R931: a host write of a byte of the read window of the in-flight command, or of the output
window of an in-flight SIG_EMIT or FRAME, is the fault HOST_RACE, whether or not the command would pass its checks (log
entry 7). -/
def Obligations.HostRaceFaults : Prop :=
  ∀ (s : State) (l : Latch) (i : Instr) (a : Word) (b : Byte), s.nextTurn = .host (.memWrite a b) →
    s.latch = some l → decode l.word = .ok i →
    ((readWindow i l s).contains a.toNat = true ∨
      (i = .frame ∧ s.out.ptr.toNat ≤ a.toNat ∧ a.toNat < s.out.ptr.toNat + 12 + l.ops.srcLen.toNat) ∨
      (i = .sigEmit ∧ s.out.ptr.toNat ≤ a.toNat ∧ a.toNat < s.out.ptr.toNat + 8)) →
    step s = .fault .hostRace

/-- 20_memory.md rule R203, as the race rule uses it: the windows a command reads and writes, from the latched operands
and the engine's cursors. -/
def Obligations.CommandWindows : Prop :=
  ∀ (i : Instr) (l : Latch) (s : State) (a : Nat),
    ((readWindow i l s).contains a = true ↔
      (((i = .crcBuf ∨ i = .frame ∨ i = .deframe) ∧ l.ops.srcAddr.toNat ≤ a ∧
          a < l.ops.srcAddr.toNat + l.ops.srcLen.toNat) ∨
        (i = .seqStart ∧ l.ops.srcAddr.toNat ≤ a ∧ a < l.ops.srcAddr.toNat + min 8 l.ops.srcLen.toNat) ∨
        (i = .seqNext ∧ s.cur.addr.toNat ≤ a ∧ a < s.cur.addr.toNat + s.cur.rem.toNat))) ∧
    ((outputWindow i l s).contains a = true ↔
      ((i = .frame ∧ s.out.ptr.toNat ≤ a ∧ a < s.out.ptr.toNat + (12 + l.ops.srcLen.toNat)) ∨
        (i = .sigEmit ∧ s.out.ptr.toNat ≤ a ∧ a < s.out.ptr.toNat + 8)))

/-- 20_memory.md rule R235: a host write to a byte of memory outside the in-flight command's windows, or with no command
in flight, stores that byte and changes nothing else. -/
def Obligations.HostWriteElsewhereIsOrdinary : Prop :=
  ∀ (s : State) (a : Word) (b : Byte), s.nextTurn = .host (.memWrite a b) → a.toNat < s.config.memSize →
    (∀ i l, s.inFlight = some (i, l) →
      (readWindow i l s).contains a.toNat = false ∧ (outputWindow i l s).contains a.toNat = false) →
    ∃ t, step s = .next t ∧ t = { s.popTurn with mem := t.mem } ∧
      ∀ x, t.mem.read x = if x = a.toNat then b else s.mem.read x

/-- 20_memory.md rule R234: a host read of a byte of the output window of an in-flight SIG_EMIT or FRAME returns a free
byte, whatever it is, and changes nothing else but the model's counter of free bytes (log entries 5 and 7). -/
def Obligations.HostReadOfInFlightOutputIsFree : Prop :=
  ∀ (s : State) (l : Latch) (i : Instr) (a : Word), s.nextTurn = .host (.memRead a) → a.toNat < s.config.memSize →
    s.latch = some l → decode l.word = .ok i → (outputWindow i l s).contains a.toNat = true →
    step s = .next { s.popTurn with
      observed := .mem (Config.freeByte s.freeIx) :: s.observed, freeIx := s.freeIx + 1 }

/-- 20_memory.md rules R214, R232 and R235: a host read of a byte of memory outside the output window of the command in
flight, or with no command in flight, returns the byte memory holds, whoever wrote it, and changes nothing else but the
model's record (log entry 2); so it is in the in-flight read window too, where rule R233 forbids the host writes only
(DEDUCED, log entry 7).
And a byte the host has written outside the in-flight windows reads back as written, by the next two turns. -/
def Obligations.HostReadsBackItsWrite : Prop :=
  (∀ (s : State) (a : Word), s.nextTurn = .host (.memRead a) → a.toNat < s.config.memSize →
    (∀ i l, s.inFlight = some (i, l) → (outputWindow i l s).contains a.toNat = false) →
    step s = .next { s.popTurn with observed := .mem (s.mem.read a.toNat) :: s.observed }) ∧
  ∀ (s t : State) (a : Word) (b : Byte) (rest : List Turn),
    s.agenda = .host (.memWrite a b) :: .host (.memRead a) :: rest → step s = .next t →
    step t = .next { t with agenda := rest, observed := .mem b :: s.observed }

/-- 20_memory.md rule R201: an address at or above MEM_SIZE does not exist. The fault is the model's own (log entry 6). -/
def Obligations.HostAddressOutsideMemoryFaults : Prop :=
  ∀ (s : State) (a : Word), s.inFlight = none → s.config.memSize ≤ a.toNat →
    (s.nextTurn = .host (.memRead a) → step s = .fault .hostOutsideMemory) ∧
      ∀ b, s.nextTurn = .host (.memWrite a b) → step s = .fault .hostOutsideMemory

/-! ### NOP and the CRC generator -/

/-- 40_command.md rule R410: NOP completes with DONE and changes nothing else. -/
def Obligations.NopCompletes : Prop :=
  ∀ (s : State) (l : Latch), s.latch = some l → exec .nop s = .next { s with done := true, latch := none }

/-- 42_crc.md rule R610: CRC_INIT sets CRC_STATE to 0xFFFFFFFF, completes with DONE and changes nothing else. -/
def Obligations.CrcInitCompletes : Prop :=
  ∀ (s : State) (l : Latch), s.latch = some l →
    exec .crcInit s = .next { s with ops := { s.ops with crcState := 0xFFFFFFFF }, done := true, latch := none }

/-- 42_crc.md rule R611: CRC_BYTE folds its byte into the latched CRC_STATE, completes with DONE and changes nothing
else. -/
def Obligations.CrcByteCompletes : Prop :=
  ∀ (s : State) (l : Latch) (b : Byte), s.latch = some l →
    exec (.crcByte b) s =
      .next { s with ops := { s.ops with crcState := upd l.ops.crcState b }, done := true, latch := none }

/-- 42_crc.md rule R612: CRC_BUF with its window in range folds the window's bytes, in address order, into the latched
CRC_STATE, completes with DONE and changes nothing else; the empty window is always in range. -/
def Obligations.CrcBufCompletes : Prop :=
  ∀ (s : State) (l : Latch), s.latch = some l →
    (l.ops.srcLen = 0 ∨ l.ops.srcAddr.toNat + l.ops.srcLen.toNat ≤ s.config.memSize) →
    exec .crcBuf s = .next { s with
      ops := { s.ops with
        crcState := (dataAt s.mem l.ops.srcAddr.toNat l.ops.srcLen.toNat).foldl upd l.ops.crcState }
      done := true
      latch := none }

/-- 20_memory.md rule R205, 60_exceptions.md rules R906 and R907: a window that is not in range is BUS_ERROR at its start
address, with nothing else changed but, for SEQ_START, the failed sequence (44_sequencer.md rule R803). For FRAME
the type is checked first. -/
def Obligations.WindowOutOfRangeIsBusError : Prop :=
  ∀ (s : State) (l : Latch), s.latch = some l →
    (l.ops.srcLen ≠ 0 → s.config.memSize < l.ops.srcAddr.toNat + l.ops.srcLen.toNat →
      (∀ i, i = .crcBuf ∨ i = .deframe ∨ (i = .frame ∧ letters4 l.ops.chunkType = true) →
        exec i s = .next (s.failedWith ⟨.busError, false, l.word.extractLsb' 24 8, 0, l.ops.srcAddr⟩ s.seq)) ∧
      exec .seqStart s =
        .next (s.failedWith ⟨.busError, false, l.word.extractLsb' 24 8, 0, l.ops.srcAddr⟩ .failed)) ∧
    (l.ops.dstCap ≠ 0 → s.config.memSize < l.ops.dstAddr.toNat + l.ops.dstCap.toNat →
      exec .outStart s = .next (s.failedWith ⟨.busError, false, l.word.extractLsb' 24 8, 0, l.ops.dstAddr⟩ s.seq))

/-- 42_crc.md rule R605: the laws of the CRC functions: (a) piecewise, (b) the empty sequence, (c) the single-byte
values, (d) dependence on the xor alone, (e) affinity, and the detection of every single-bit error, which the rule
itself takes from general knowledge. The rule is an inference of the spec from rules R602 to R604; the CRC parameters
are log entry 15. -/
def Obligations.CrcLaws : Prop :=
  (∀ (c : Word) (s t : List Byte), fold c (s ++ t) = fold (fold c s) t) ∧
  crc32 [] = 0x00000000 ∧
  (upd 0 0 = 0 ∧ upd 0 0x80 = 0xEDB88320 ∧ upd 0 0x01 = 0x77073096) ∧
  (∀ (c d : Word) (b e : Byte), c ^^^ b.setWidth 32 = d ^^^ e.setWidth 32 → upd c b = upd d e) ∧
  (∀ (c d : Word) (s t : List Byte), s.length = t.length →
    fold c s ^^^ fold d t = fold (c ^^^ d) (List.zipWith (· ^^^ ·) s t)) ∧
  (∀ s s' u u' : List Byte, s.length = s'.length → u.length = u'.length →
    List.zipWith (· ^^^ ·) s s' = List.zipWith (· ^^^ ·) u u' → crc32 s ^^^ crc32 s' = crc32 u ^^^ crc32 u') ∧
  ∀ (p q : List Byte) (b : Byte) (j : Nat), j < 8 →
    crc32 (p ++ (b ^^^ BitVec.ofNat 8 (2 ^ j)) :: q) ≠ crc32 (p ++ b :: q)

/-! ### The chunk type validator -/

/-- 41_chunk_type.md rule R510: TYPE_CHECK completes with DONE when the latched type is four letters, and otherwise fails
with INVALID_CHUNK_TYPE and ERR_ADDR = 0; nothing else changes. -/
def Obligations.TypeCheckOutcomes : Prop :=
  ∀ (s : State) (l : Latch), s.latch = some l →
    (letters4 l.ops.chunkType = true → exec .typeCheck s = .next { s with done := true, latch := none }) ∧
    (letters4 l.ops.chunkType = false →
      exec .typeCheck s = .next (s.failedWith ⟨.invalidChunkType, false, l.word.extractLsb' 24 8, 0, 0⟩ s.seq))

/-! ### The chunk codec -/

/-- 43_chunk_codec.md rule R702, 20_memory.md rules R208 to R210: FRAME with a letter type, its data window in range,
enough room and windows that share no address writes exactly the chunk at OUT_PTR, sets CHUNK_CRC, advances the output
cursor, and changes nothing else; every byte outside the written window reads as before. The four bytes of length, type and CRC
are the bits of the word, [31:24] at the lowest address, and the CRC is over the type bytes in that order. -/
def Obligations.FrameCompletes : Prop :=
  ∀ (s : State) (l : Latch), s.latch = some l → letters4 l.ops.chunkType = true →
    (l.ops.srcLen = 0 ∨ l.ops.srcAddr.toNat + l.ops.srcLen.toNat ≤ s.config.memSize) →
    12 + l.ops.srcLen.toNat ≤ s.out.rem.toNat →
    (∀ a, l.ops.srcAddr.toNat ≤ a → a < l.ops.srcAddr.toNat + l.ops.srcLen.toNat →
      s.out.ptr.toNat ≤ a → a < s.out.ptr.toNat + (12 + l.ops.srcLen.toNat) → False) →
    let n := l.ops.srcLen.toNat
    let p := s.out.ptr.toNat
    let d := dataAt s.mem l.ops.srcAddr.toNat n
    let bytes (w : Word) : List Byte := [w.extractLsb' 24 8, w.extractLsb' 16 8, w.extractLsb' 8 8, w.extractLsb' 0 8]
    let c := crc32 (bytes l.ops.chunkType ++ d)
    ∃ t, exec .frame s = .next t ∧
      t = { s with
        mem := t.mem
        chunkCrc := c
        out := ⟨BitVec.ofNat 32 (p + (12 + n)), BitVec.ofNat 32 (s.out.rem.toNat - (12 + n)),
          BitVec.ofNat 32 (s.out.count.toNat + (12 + n))⟩
        done := true
        latch := none } ∧
      dataAt t.mem p 4 = bytes l.ops.srcLen ∧
      dataAt t.mem (p + 4) 4 = bytes l.ops.chunkType ∧
      dataAt t.mem (p + 8) n = d ∧
      dataAt t.mem (p + 8 + n) 4 = bytes c ∧
      ∀ a, (a < p ∨ p + (12 + n) ≤ a) → t.mem.read a = s.mem.read a

/-- 43_chunk_codec.md rule R702, 60_exceptions.md rules R906 and R907: FRAME's errors other than BUS_ERROR, the type
before the capacity, each with nothing written. -/
def Obligations.FrameErrors : Prop :=
  ∀ (s : State) (l : Latch), s.latch = some l →
    (letters4 l.ops.chunkType = false →
      exec .frame s = .next (s.failedWith ⟨.invalidChunkType, false, l.word.extractLsb' 24 8, 0, 0⟩ s.seq)) ∧
    (letters4 l.ops.chunkType = true →
      (l.ops.srcLen = 0 ∨ l.ops.srcAddr.toNat + l.ops.srcLen.toNat ≤ s.config.memSize) →
      s.out.rem.toNat < 12 + l.ops.srcLen.toNat →
      exec .frame s = .next (s.failedWith ⟨.dstOverflow, false, l.word.extractLsb' 24 8, 0, s.out.ptr⟩ s.seq))

/-- 60_exceptions.md rule R932: a FRAME that passed its three checks and whose data window shares an address with the
bytes it would write is the fault WINDOW_OVERLAP. -/
def Obligations.FrameOverlapFaults : Prop :=
  ∀ (s : State) (l : Latch) (a : Nat), s.latch = some l → letters4 l.ops.chunkType = true →
    (l.ops.srcLen = 0 ∨ l.ops.srcAddr.toNat + l.ops.srcLen.toNat ≤ s.config.memSize) →
    12 + l.ops.srcLen.toNat ≤ s.out.rem.toNat →
    l.ops.srcAddr.toNat ≤ a → a < l.ops.srcAddr.toNat + l.ops.srcLen.toNat →
    s.out.ptr.toNat ≤ a → a < s.out.ptr.toNat + (12 + l.ops.srcLen.toNat) →
    exec .frame s = .fault .windowOverlap

/-- 43_chunk_codec.md rules R711 and R720: DEFRAME of a window in range that starts with a complete chunk of letter type
and matching CRC commits the decode results, CHUNK_CRC and the cursor, completes with DONE and changes nothing else. The
u32 fields are read with the byte at the lowest address in [31:24] (20_memory.md rules R208, R209). -/
def Obligations.DeframeCompletes : Prop :=
  (∀ (m : Memory) (a : Nat),
    (m.readBe32 a).extractLsb' 24 8 = m.read a ∧ (m.readBe32 a).extractLsb' 16 8 = m.read (a + 1) ∧
      (m.readBe32 a).extractLsb' 8 8 = m.read (a + 2) ∧ (m.readBe32 a).extractLsb' 0 8 = m.read (a + 3)) ∧
  ∀ (s : State) (l : Latch), s.latch = some l →
    l.ops.srcAddr.toNat + l.ops.srcLen.toNat ≤ s.config.memSize →
    goodChunkAt s.mem l.ops.srcAddr.toNat l.ops.srcLen.toNat →
    let a := l.ops.srcAddr.toNat
    let n := (s.mem.readBe32 a).toNat
    exec .deframe s = .next { s with
      dec := ⟨s.mem.readBe32 a, s.mem.readBe32 (a + 4), BitVec.ofNat 32 (a + 8), s.mem.readBe32 (a + 8 + n)⟩
      chunkCrc := s.mem.readBe32 (a + 8 + n)
      cur := ⟨BitVec.ofNat 32 (a + 12 + n), BitVec.ofNat 32 (l.ops.srcLen.toNat - (12 + n))⟩
      done := true
      latch := none }

/-- 43_chunk_codec.md rules R712 to R715: the errors of DEFRAME in check order, each at the chunk's start address with
IN_SEQ = 0 and nothing else changed: UNEXPECTED_EOF below 4 bytes or below 12 + length bytes, then
INVALID_CHUNK_TYPE, then CRC_MISMATCH. -/
def Obligations.DeframeErrorOrder : Prop :=
  ∀ (s : State) (l : Latch), s.latch = some l →
    (l.ops.srcLen = 0 ∨ l.ops.srcAddr.toNat + l.ops.srcLen.toNat ≤ s.config.memSize) →
    let a := l.ops.srcAddr.toNat
    let r := l.ops.srcLen.toNat
    let n := (s.mem.readBe32 a).toNat
    let fails (c : ErrCode) := s.failedWith ⟨c, false, l.word.extractLsb' 24 8, 0, l.ops.srcAddr⟩ s.seq
    ((r < 4 ∨ r < 12 + n) → exec .deframe s = .next (fails .unexpectedEof)) ∧
    (12 + n ≤ r → letters4 (s.mem.readBe32 (a + 4)) = false →
      exec .deframe s = .next (fails .invalidChunkType)) ∧
    (12 + n ≤ r → letters4 (s.mem.readBe32 (a + 4)) = true →
      crcOf (s.mem.readBe32 (a + 4)) (dataAt s.mem (a + 8) n) ≠ s.mem.readBe32 (a + 8 + n) →
      exec .deframe s = .next (fails .crcMismatch))

/-- 43_chunk_codec.md rule R721: DEFRAME of a chunk FRAME wrote, its bytes unchanged, from a window in range
(20_memory.md rule R205), gives back the type, the length and the data, with the remainder in the cursor. `s` is the
state FRAME completes from, `u` the state DEFRAME completes from. The rule is an inference of the spec from rules R702 and R711. -/
def Obligations.FrameThenDeframeRoundTrip : Prop :=
  ∀ (s t u : State) (l k : Latch), s.latch = some l → s.err = false → exec .frame s = .next t → t.err = false →
    u.latch = some k → k.ops.srcAddr = s.out.ptr → 12 + l.ops.srcLen.toNat ≤ k.ops.srcLen.toNat →
    k.ops.srcAddr.toNat + k.ops.srcLen.toNat ≤ u.config.memSize →
    (∀ a, s.out.ptr.toNat ≤ a → a < s.out.ptr.toNat + (12 + l.ops.srcLen.toNat) → u.mem.read a = t.mem.read a) →
    let n := l.ops.srcLen.toNat
    let p := s.out.ptr.toNat
    let d := dataAt s.mem l.ops.srcAddr.toNat n
    let c := crcOf l.ops.chunkType d
    exec .deframe u = .next { u with
      dec := ⟨l.ops.srcLen, l.ops.chunkType, BitVec.ofNat 32 (p + 8), c⟩
      chunkCrc := c
      cur := ⟨BitVec.ofNat 32 (p + (12 + n)), BitVec.ofNat 32 (k.ops.srcLen.toNat - (12 + n))⟩
      done := true
      latch := none } ∧
    dataAt u.mem (p + 8) n = d

/-- 43_chunk_codec.md rule R722: change exactly one bit of the type or data field of a chunk FRAME wrote; DEFRAME then
fails with INVALID_CHUNK_TYPE where the bit makes a type byte no letter, and with CRC_MISMATCH everywhere else. The
bit is bit `j` of the byte at offset `x` of the chunk (4 to 7 the type, 8 and up the data). The rule is an inference of
the spec from rules R711 and R605. -/
def Obligations.TamperedChunkIsRejected : Prop :=
  ∀ (s t u : State) (l k : Latch) (x j : Nat), s.latch = some l → s.err = false → exec .frame s = .next t →
    t.err = false → u.latch = some k → k.ops.srcAddr = s.out.ptr →
    12 + l.ops.srcLen.toNat ≤ k.ops.srcLen.toNat →
    k.ops.srcAddr.toNat + k.ops.srcLen.toNat ≤ u.config.memSize →
    4 ≤ x → x < 8 + l.ops.srcLen.toNat → j < 8 →
    (∀ a, s.out.ptr.toNat ≤ a → a < s.out.ptr.toNat + (12 + l.ops.srcLen.toNat) →
      u.mem.read a = if a = s.out.ptr.toNat + x then t.mem.read a ^^^ BitVec.ofNat 8 (2 ^ j) else t.mem.read a) →
    let flipped := u.mem.read (s.out.ptr.toNat + x)
    exec .deframe u = .next (u.failedWith
      ⟨if x < 8 ∧ letter flipped = false then .invalidChunkType else .crcMismatch, false,
        k.word.extractLsb' 24 8, 0, s.out.ptr⟩ u.seq)

/-- 44_sequencer.md rule R825, for one chunk: framing a decoded chunk again writes the bytes it was decoded from. The
rule is an inference of the spec. -/
def Obligations.DecodedChunkReframesToTheSameBytes : Prop :=
  ∀ (s t u v : State) (l k : Latch), s.latch = some l → s.err = false → exec .deframe s = .next t → t.err = false →
    u.latch = some k → u.err = false → u.mem = s.mem → k.ops.chunkType = t.dec.chunkType →
    k.ops.srcAddr.toNat = l.ops.srcAddr.toNat + 8 → k.ops.srcLen = t.dec.len →
    exec .frame u = .next v → v.err = false →
    dataAt v.mem u.out.ptr.toNat (12 + t.dec.len.toNat) = dataAt s.mem l.ops.srcAddr.toNat (12 + t.dec.len.toNat)

/-! ### The chunk sequencer -/

/-- 44_sequencer.md rule R801: SEQ_START of a window in range whose first 8 bytes are the signature opens the stream past
them, completes with DONE and changes nothing else. -/
def Obligations.SeqStartCompletes : Prop :=
  ∀ (s : State) (l : Latch), s.latch = some l →
    l.ops.srcAddr.toNat + l.ops.srcLen.toNat ≤ s.config.memSize → 8 ≤ l.ops.srcLen.toNat →
    dataAt s.mem l.ops.srcAddr.toNat 8 = [0x89, 0x50, 0x4E, 0x47, 0x0D, 0x0A, 0x1A, 0x0A] →
    exec .seqStart s = .next { s with
      cur := ⟨BitVec.ofNat 32 (l.ops.srcAddr.toNat + 8), BitVec.ofNat 32 (l.ops.srcLen.toNat - 8)⟩
      chunkIdx := 0
      seq := .stream
      done := true
      latch := none }

/-- 44_sequencer.md rules R802 and R803: SEQ_START of a window shorter than 8 bytes, or not starting with the signature,
fails with INVALID_SIGNATURE; every failed SEQ_START sets SEQ_STATE to FAILED and leaves the cursor and CHUNK_IDX. -/
def Obligations.SeqStartFailures : Prop :=
  ∀ (s : State) (l : Latch), s.latch = some l →
    ((l.ops.srcLen = 0 ∨ l.ops.srcAddr.toNat + l.ops.srcLen.toNat ≤ s.config.memSize) →
      (l.ops.srcLen.toNat < 8 ∨
        dataAt s.mem l.ops.srcAddr.toNat 8 ≠ [0x89, 0x50, 0x4E, 0x47, 0x0D, 0x0A, 0x1A, 0x0A]) →
      exec .seqStart s = .next (s.failedWith
        ⟨.invalidSignature, false, l.word.extractLsb' 24 8, 0, l.ops.srcAddr⟩ .failed)) ∧
    ∀ t, s.err = false → exec .seqStart s = .next t → t.err = true →
      t.seq = .failed ∧ t.cur = s.cur ∧ t.chunkIdx = s.chunkIdx

/-- 44_sequencer.md rule R815: SEQ_NEXT in IDLE or FAILED fails with SEQUENCE_ERROR and changes nothing else. -/
def Obligations.SeqNextWithoutStreamFails : Prop :=
  ∀ (s : State) (l : Latch), s.latch = some l → (s.seq = .idle ∨ s.seq = .failed) →
    exec .seqNext s = .next (s.failedWith ⟨.sequenceError, false, l.word.extractLsb' 24 8, 0, 0⟩ s.seq)

/-- 44_sequencer.md rule R812: SEQ_NEXT in STREAM or END with CUR_REM = 0 succeeds, sets SEQ_STATE to END (EOS = 1) and
changes nothing else. -/
def Obligations.SeqNextReportsEndOfStream : Prop :=
  ∀ (s : State) (l : Latch), s.latch = some l → (s.seq = .stream ∨ s.seq = .ended) → s.cur.rem = 0 →
    ∃ t, exec .seqNext s = .next t ∧ t = { s with seq := .ended, done := true, latch := none } ∧ t.eos = true

/-- 44_sequencer.md rules R810 and R811: SEQ_NEXT in STREAM or END with a complete chunk of letter type and matching CRC
at the cursor, within memory, commits the decode results, CHUNK_CRC and the cursor, adds 1 to CHUNK_IDX, leaves
SEQ_STATE = STREAM, completes with DONE and changes nothing else. -/
def Obligations.SeqNextDecodesChunk : Prop :=
  ∀ (s : State) (l : Latch), s.latch = some l → (s.seq = .stream ∨ s.seq = .ended) →
    s.cur.addr.toNat + s.cur.rem.toNat ≤ s.config.memSize →
    goodChunkAt s.mem s.cur.addr.toNat s.cur.rem.toNat →
    let a := s.cur.addr.toNat
    let n := (s.mem.readBe32 a).toNat
    exec .seqNext s = .next { s with
      dec := ⟨s.mem.readBe32 a, s.mem.readBe32 (a + 4), BitVec.ofNat 32 (a + 8), s.mem.readBe32 (a + 8 + n)⟩
      chunkCrc := s.mem.readBe32 (a + 8 + n)
      cur := ⟨BitVec.ofNat 32 (a + 12 + n), BitVec.ofNat 32 (s.cur.rem.toNat - (12 + n))⟩
      chunkIdx := s.chunkIdx + 1
      seq := .stream
      done := true
      latch := none }

/-- 44_sequencer.md rule R813: a SEQ_NEXT whose chunk decode fails records the error with IN_SEQ = 1, the chunk's index
and its start address, sets SEQ_STATE to FAILED and changes nothing else; the codes in check order (43_chunk_codec.md
rule R712). -/
def Obligations.SeqNextChunkErrorFailsTheStream : Prop :=
  ∀ (s : State) (l : Latch), s.latch = some l → (s.seq = .stream ∨ s.seq = .ended) → s.cur.rem ≠ 0 →
    s.cur.addr.toNat + s.cur.rem.toNat ≤ s.config.memSize →
    let a := s.cur.addr.toNat
    let r := s.cur.rem.toNat
    let n := (s.mem.readBe32 a).toNat
    let fails (c : ErrCode) := s.failedWith ⟨c, true, l.word.extractLsb' 24 8, s.chunkIdx, s.cur.addr⟩ .failed
    ((r < 4 ∨ r < 12 + n) → exec .seqNext s = .next (fails .unexpectedEof)) ∧
    (12 + n ≤ r → letters4 (s.mem.readBe32 (a + 4)) = false →
      exec .seqNext s = .next (fails .invalidChunkType)) ∧
    (12 + n ≤ r → letters4 (s.mem.readBe32 (a + 4)) = true →
      crcOf (s.mem.readBe32 (a + 4)) (dataAt s.mem (a + 8) n) ≠ s.mem.readBe32 (a + 8 + n) →
      exec .seqNext s = .next (fails .crcMismatch))

/-- 44_sequencer.md rule R820: OUT_START with its window in range opens the output cursor, completes with DONE and
changes nothing else. -/
def Obligations.OutStartCompletes : Prop :=
  ∀ (s : State) (l : Latch), s.latch = some l →
    (l.ops.dstCap = 0 ∨ l.ops.dstAddr.toNat + l.ops.dstCap.toNat ≤ s.config.memSize) →
    exec .outStart s = .next { s with out := ⟨l.ops.dstAddr, l.ops.dstCap, 0⟩, done := true, latch := none }

/-- 44_sequencer.md rule R821: SIG_EMIT with 8 bytes of room writes the signature at OUT_PTR, advances the output cursor
and changes nothing else, every other byte reading as before; with less room it fails with DST_OVERFLOW at OUT_PTR
and writes nothing. -/
def Obligations.SigEmitOutcomes : Prop :=
  ∀ (s : State) (l : Latch), s.latch = some l →
    (8 ≤ s.out.rem.toNat →
      ∃ t, exec .sigEmit s = .next t ∧
        t = { s with
          mem := t.mem
          out := ⟨BitVec.ofNat 32 (s.out.ptr.toNat + 8), BitVec.ofNat 32 (s.out.rem.toNat - 8),
            BitVec.ofNat 32 (s.out.count.toNat + 8)⟩
          done := true
          latch := none } ∧
        dataAt t.mem s.out.ptr.toNat 8 = [0x89, 0x50, 0x4E, 0x47, 0x0D, 0x0A, 0x1A, 0x0A] ∧
        ∀ a, (a < s.out.ptr.toNat ∨ s.out.ptr.toNat + 8 ≤ a) → t.mem.read a = s.mem.read a) ∧
    (s.out.rem.toNat < 8 →
      exec .sigEmit s = .next (s.failedWith ⟨.dstOverflow, false, l.word.extractLsb' 24 8, 0, s.out.ptr⟩ s.seq))

/-! ### Rules of the whole machine -/

/-- 44_sequencer.md rule R814: the cursor invariant holds at reset, every step keeps it, and in a state that has it
SEQ_NEXT never raises BUS_ERROR. The rule is an inference of the spec. -/
def Obligations.CursorStaysInCheckedWindow : Prop :=
  State.reset.CursorInv ∧
  (∀ s t : State, s.CursorInv → step s = .next t → t.CursorInv) ∧
  ∀ s t : State, s.CursorInv → exec .seqNext s = .next t → s.err = false → t.err = true → t.error.code ≠ .busError

/-- 44_sequencer.md rule R822: the output invariant holds at reset and every step keeps it, so every byte SIG_EMIT and
FRAME write lies in memory. The rule is an inference of the spec. -/
def Obligations.OutputStaysInCheckedWindow : Prop :=
  State.reset.OutputInv ∧
  (∀ s t : State, s.OutputInv → step s = .next t → t.OutputInv) ∧
  ∀ (i : Instr) (s t : State) (l : Latch) (a : Nat), s.OutputInv → s.latch = some l → s.err = false →
    exec i s = .next t → t.err = false → (outputWindow i l s).contains a = true →
    a < s.config.memSize ∧ s.out.ptr.toNat ≤ a ∧ a < s.out.ptr.toNat + s.out.rem.toNat

/-- Every step keeps the machine's invariant (Safety.lean, State.Inv): memory canonical and below MEM_SIZE, both cursors in
checked windows, DONE and ERR exclusive and clear while BUSY, the error record consistent, the decode results a
chunk's. -/
def Obligations.EveryStepKeepsTheInvariant : Prop :=
  ∀ s t : State, s.Inv → step s = .next t → t.Inv

/-- 10_state.md rule R129 and 44_sequencer.md rule R810: the transitions of SEQ_STATE by the turn taken; no other
command, and no host step, changes it. That SEQ_NEXT in END with CUR_REM ≠ 0 goes where it goes in STREAM is rule
R810's. -/
def Obligations.SequencerTransitions : Prop :=
  ∀ s t : State, (s.busy = true → s.err = false) → step s = .next t →
    (s.nextTurn = .reset → t.seq = .idle) ∧
    (∀ h, s.nextTurn = .host h → t.seq = s.seq) ∧
    (s.engineMoves → s.inFlight.map Prod.fst = some .seqStart → t.seq = if t.err then .failed else .stream) ∧
    (s.engineMoves → s.inFlight.map Prod.fst = some .seqNext →
      t.seq =
        if s.seq = .idle ∨ s.seq = .failed then s.seq
        else if s.cur.rem = 0 then .ended
        else if t.err then .failed else .stream) ∧
    (s.engineMoves → s.inFlight.map Prod.fst ≠ some .seqStart → s.inFlight.map Prod.fst ≠ some .seqNext →
      t.seq = s.seq)

/-- 10_state.md rules R116 and R118, 42_crc.md rule R606: no command writes an operand register but CRC_STATE, only the
three CRC commands write CRC_STATE, and no command changes CTRL, REJECT, MEM_SIZE or the model's own fields. -/
def Obligations.CommandsLeaveHostRegisters : Prop :=
  ∀ (i : Instr) (s t : State), exec i s = .next t →
    t.ops = { s.ops with crcState := t.ops.crcState } ∧
    (i ≠ .crcInit → (∀ b, i ≠ .crcByte b) → i ≠ .crcBuf → t.ops.crcState = s.ops.crcState) ∧
    t.ctrl = s.ctrl ∧ t.reject = s.reject ∧ t.config = s.config ∧ t.agenda = s.agenda ∧ t.observed = s.observed ∧
    t.freeIx = s.freeIx

/-- 20_memory.md rules R203 and R206: a command changes no byte of buffer memory outside its output window, and only
FRAME and SIG_EMIT have one. -/
def Obligations.CommandsWriteOnlyTheirOutputWindow : Prop :=
  ∀ (i : Instr) (s t : State) (l : Latch), s.latch = some l → exec i s = .next t →
    (∀ a, (outputWindow i l s).contains a = false → t.mem.read a = s.mem.read a) ∧
    (i ≠ .frame → i ≠ .sigEmit → t.mem = s.mem)

/-- 10_state.md rule R103: a host step other than a CMD write changes no read-only register with storage, no latch and
no sequencer state; a CMD write changes of them only the error record and the latch. -/
def Obligations.HostLeavesReadOnlyRegisters : Prop :=
  ∀ (s t : State) (h : HostStep), s.nextTurn = .host h → step s = .next t →
    t.seq = s.seq ∧ t.dec = s.dec ∧ t.chunkCrc = s.chunkCrc ∧ t.cur = s.cur ∧ t.chunkIdx = s.chunkIdx ∧
    t.out = s.out ∧ t.config = s.config ∧
    ((∀ w, h ≠ .portWrite 0x10 .word w) → t.error = s.error ∧ t.latch = s.latch)
end

