-- ==== Sys2Proof/Laws/Crc.lean ====
section
/-! SUPPORT. The CRC register update is linear over GF(2) and loses nothing (42_crc.md rules R602, R605). -/

namespace Sys2Proof.Machine

theorem crcPoly_top : crcPoly.getLsbD 31 = true := by decide

/-- One shift is linear. -/
theorem crcShift_xor (c d : Word) : crcShift (c ^^^ d) = crcShift c ^^^ crcShift d := by
  unfold crcShift
  rw [BitVec.getLsbD_xor]
  rw [BitVec.ushiftRight_xor_distrib]
  generalize c >>> 1 = x, d >>> 1 = y
  cases c.getLsbD 0 <;> cases d.getLsbD 0
  · rfl
  · exact BitVec.xor_assoc ..
  · change x ^^^ y ^^^ crcPoly = x ^^^ crcPoly ^^^ y
    rw [BitVec.xor_assoc, BitVec.xor_comm y, BitVec.xor_assoc]
  · change x ^^^ y = x ^^^ crcPoly ^^^ (y ^^^ crcPoly)
    rw [BitVec.xor_comm y, ← BitVec.xor_assoc, BitVec.xor_assoc x, BitVec.xor_self, BitVec.xor_zero]

theorem crcShifts_xor (n : Nat) (c d : Word) : crcShifts n (c ^^^ d) = crcShifts n c ^^^ crcShifts n d := by
  induction n generalizing c d with
  | zero => rfl
  | succ n ih => rw [crcShifts, crcShift_xor, ih]; rfl

/-- One shift sends only 0 to 0: the polynomial's top bit marks the bit shifted out. -/
theorem crcShift_eq_zero {c : Word} (h : crcShift c = 0) : c = 0 := by
  have h31 : (crcShift c).getLsbD 31 = c.getLsbD 0 := by
    unfold crcShift
    split <;> simp_all [crcPoly_top]
  have h0 : c.getLsbD 0 = false := by simpa [h] using h31.symm
  have hs : c >>> 1 = 0 := by
    unfold crcShift at h
    rwa [h0] at h
  apply BitVec.eq_of_getLsbD_eq
  intro k hk
  cases k with
  | zero => simpa using h0
  | succ k =>
    have := congrArg (fun v : Word => v.getLsbD k) hs
    simpa [Nat.add_comm] using this

theorem crcShifts_eq_zero {n : Nat} {c : Word} (h : crcShifts n c = 0) : c = 0 := by
  induction n generalizing c with
  | zero => exact h
  | succ n ih => exact crcShift_eq_zero (ih h)

/-- `upd` is injective in the register xor the byte. -/
theorem upd_eq_iff (c d : Word) (b e : Byte) :
    upd c b = upd d e ↔ c ^^^ b.setWidth 32 = d ^^^ e.setWidth 32 := by
  constructor
  · intro h
    unfold upd at h
    rw [← BitVec.xor_eq_zero_iff, ← crcShifts_xor] at h
    exact BitVec.xor_eq_zero_iff.1 (crcShifts_eq_zero h)
  · intro h
    unfold upd
    rw [h]

@[simp] theorem fold_nil (c : Word) : fold c [] = c := rfl

@[simp] theorem fold_cons (c : Word) (b : Byte) (s : List Byte) : fold c (b :: s) = fold (upd c b) s := rfl

/-- `fold` is injective in the register. -/
theorem fold_inj (s : List Byte) {c d : Word} (h : fold c s = fold d s) : c = d := by
  induction s generalizing c d with
  | nil => exact h
  | cons b s ih =>
    have := (upd_eq_iff c d b b).1 (ih h)
    simpa [BitVec.xor_left_inj] using this

end Sys2Proof.Machine
end

