-- ==== Sys2Proof/Laws/Memory.lean ====
section
/-! SUPPORT. The laws of buffer memory: what a read returns after a write, and that every operation keeps the
canonical form (20_memory.md rules R201, R214). -/

namespace Sys2Proof.Machine

theorem Memory.lookup_write (m : Memory) (a x : Nat) (b : Byte) :
    (m.write a b).lookup x = if x = a then some b else m.lookup x := by
  induction m with
  | nil => simp [Memory.write, Memory.lookup]
  | cons c m ih =>
    obtain ⟨k, v⟩ := c
    simp only [Memory.write]
    split
    · simp only [Memory.lookup]
      split_ifs <;> first | rfl | omega
    · split
      · subst_vars
        simp only [Memory.lookup]
        split_ifs <;> rfl
      · simp only [Memory.lookup, ih]
        split_ifs <;> first | rfl | omega

/-- A byte reads as written last, and every other byte as before (20_memory.md rule R214). -/
theorem Memory.read_write (m : Memory) (a x : Nat) (b : Byte) :
    (m.write a b).read x = if x = a then b else m.read x := by
  simp only [Memory.read, Memory.lookup_write]
  split <;> rfl

@[simp] theorem Memory.read_write_self (m : Memory) (a : Nat) (b : Byte) : (m.write a b).read a = b := by
  simp [Memory.read_write]

theorem Memory.read_write_other (m : Memory) {a x : Nat} (b : Byte) (h : x ≠ a) :
    (m.write a b).read x = m.read x := by
  simp [Memory.read_write, h]

/-- What a read returns after `MemWrite(a, len(s), s)` (00_scope.md rule R15). -/
theorem Memory.read_writeBytes (m : Memory) (a x : Nat) (s : List Byte) :
    (m.writeBytes a s).read x = if a ≤ x then s.getD (x - a) (m.read x) else m.read x := by
  induction s generalizing m a with
  | nil => simp [Memory.writeBytes]
  | cons b s ih =>
    rw [Memory.writeBytes, ih, Memory.read_write]
    rcases Nat.lt_trichotomy x a with h | rfl | h
    · rw [if_neg (by omega), if_neg (by omega), if_neg (by omega)]
    · rw [if_neg (by omega), if_pos rfl, if_pos le_rfl, Nat.sub_self, List.getD_cons_zero]
    · rw [if_pos (by omega), if_neg (by omega), if_pos (by omega),
        show x - a = (x - (a + 1)) + 1 by omega, List.getD_cons_succ]

/-- Outside the written bytes every byte reads as before. -/
theorem Memory.read_writeBytes_outside (m : Memory) {a x : Nat} (s : List Byte)
    (h : x < a ∨ a + s.length ≤ x) : (m.writeBytes a s).read x = m.read x := by
  rw [Memory.read_writeBytes]
  split
  · rw [List.getD_eq_getElem?_getD, List.getElem?_eq_none (by omega), Option.getD_none]
  · rfl

/-- The k-th written byte reads as written. -/
theorem Memory.read_writeBytes_inside (m : Memory) (a k : Nat) (s : List Byte) (h : k < s.length) :
    (m.writeBytes a s).read (a + k) = s[k] := by
  rw [Memory.read_writeBytes, if_pos (by omega), Nat.add_sub_cancel_left, List.getD_eq_getElem?_getD,
    List.getElem?_eq_getElem h, Option.getD_some]

@[simp] theorem Memory.readBytes_length (m : Memory) (a n : Nat) : (m.readBytes a n).length = n := by
  induction n generalizing a with
  | zero => rfl
  | succ n ih => simp [Memory.readBytes, ih]

/-- `MemRead(a, n)` is the sequence of the n bytes from a (00_scope.md rule R15). -/
theorem Memory.readBytes_getElem (m : Memory) (a n k : Nat) (h : k < (m.readBytes a n).length) :
    (m.readBytes a n)[k] = m.read (a + k) := by
  induction n generalizing a k with
  | zero => simp [Memory.readBytes] at h
  | succ n ih =>
    cases k with
    | zero => rfl
    | succ k =>
      simp only [Memory.readBytes, List.getElem_cons_succ]
      rw [ih, Nat.add_assoc, Nat.add_comm 1 k]

/-- `MemRead` depends only on the bytes of its window. -/
theorem Memory.readBytes_congr {m m' : Memory} {a n : Nat}
    (h : ∀ k, k < n → m'.read (a + k) = m.read (a + k)) : m'.readBytes a n = m.readBytes a n := by
  apply List.ext_getElem (by simp)
  intro k h1 h2
  rw [Memory.readBytes_getElem, Memory.readBytes_getElem]
  exact h k (by simpa using h1)

/-- The strictly rising form, by its head. -/
theorem Memory.wf_cons (k : Nat) (v : Byte) (m : Memory) :
    Memory.wf ((k, v) :: m) = true ↔ (∀ c ∈ m.head?, k < c.1) ∧ Memory.wf m = true := by
  cases m with
  | nil => simp [Memory.wf]
  | cons c m => simp [Memory.wf]

theorem Memory.head?_write (m : Memory) (a : Nat) (b : Byte) :
    ∀ c ∈ (m.write a b).head?, c.1 = a ∨ ∃ d ∈ m.head?, d.1 = c.1 := by
  cases m with
  | nil => simp [Memory.write]
  | cons d m =>
    obtain ⟨k, v⟩ := d
    simp only [Memory.write]
    split
    · simp
    · split <;> simp

/-- A byte write keeps the canonical form. -/
theorem Memory.wf_write {m : Memory} (h : m.wf = true) (a : Nat) (b : Byte) : (m.write a b).wf = true := by
  induction m with
  | nil => rfl
  | cons c m ih =>
    obtain ⟨k, v⟩ := c
    obtain ⟨h1, h2⟩ := (Memory.wf_cons k v m).1 h
    simp only [Memory.write]
    split
    · simp_all [Memory.wf]
    · split
      · subst_vars
        exact (Memory.wf_cons _ _ _).2 ⟨h1, h2⟩
      · refine (Memory.wf_cons _ _ _).2 ⟨fun c hc => ?_, ih h2⟩
        rcases Memory.head?_write m a b c hc with hca | ⟨d, hd, hdc⟩
        · omega
        · exact hdc ▸ h1 d hd

/-- `MemWrite` keeps the canonical form. -/
theorem Memory.wf_writeBytes {m : Memory} (h : m.wf = true) (a : Nat) (s : List Byte) :
    (m.writeBytes a s).wf = true := by
  induction s generalizing m a with
  | nil => exact h
  | cons b s ih => exact ih (Memory.wf_write h a b) (a + 1)

/-- The cells of a memory after a byte write. -/
theorem Memory.mem_write {m : Memory} {a : Nat} {b : Byte} {c : Host.Cell} (h : c ∈ m.write a b) :
    c.1 = a ∨ c ∈ m := by
  induction m with
  | nil => simp_all [Memory.write]
  | cons d m ih =>
    obtain ⟨k, v⟩ := d
    simp only [Memory.write] at h
    split at h
    · rcases List.mem_cons.1 h with rfl | h
      · exact .inl rfl
      · exact .inr h
    · split at h
      · rcases List.mem_cons.1 h with rfl | h
        · exact .inl rfl
        · exact .inr (List.mem_cons_of_mem _ h)
      · rcases List.mem_cons.1 h with rfl | h
        · exact .inr (List.mem_cons_self ..)
        · exact (ih h).imp_right (List.mem_cons_of_mem _)

/-- The cells of a memory after `MemWrite`: those before, and cells of the written window. -/
theorem Memory.mem_writeBytes {m : Memory} {a : Nat} {s : List Byte} {c : Host.Cell}
    (h : c ∈ m.writeBytes a s) : (a ≤ c.1 ∧ c.1 < a + s.length) ∨ c ∈ m := by
  induction s generalizing m a with
  | nil => exact .inr h
  | cons b s ih =>
    rcases ih h with h | h
    · simp only [List.length_cons]
      omega
    · rcases Memory.mem_write h with h | h
      · simp only [List.length_cons]
        omega
      · exact .inr h

@[simp] theorem freeBytes_length (k n : Nat) : (freeBytes k n).length = n := by
  induction n generalizing k with
  | zero => rfl
  | succ n ih => simp [freeBytes, ih]

/-- The memory of reset is in the canonical form. -/
theorem Memory.wf_reset : State.reset.mem.wf = true := rfl

end Sys2Proof.Machine
end

