-- ==== Sys2Proof/Laws/State.lean ====
section
/-! SUPPORT. One lemma per field per named update of State, true by rfl, so that no proof unfolds a record update. -/

namespace Sys2Proof.Machine

variable (s : State)

/-! ### State.accept -/

@[simp] theorem State.accept_ctrl (w : Word) : (s.accept w).ctrl = s.ctrl := rfl
@[simp] theorem State.accept_done (w : Word) : (s.accept w).done = false := rfl
@[simp] theorem State.accept_err (w : Word) : (s.accept w).err = false := rfl
@[simp] theorem State.accept_reject (w : Word) : (s.accept w).reject = s.reject := rfl
@[simp] theorem State.accept_seq (w : Word) : (s.accept w).seq = s.seq := rfl
@[simp] theorem State.accept_error (w : Word) : (s.accept w).error = ErrorRecord.clear := rfl
@[simp] theorem State.accept_ops (w : Word) : (s.accept w).ops = s.ops := rfl
@[simp] theorem State.accept_dec (w : Word) : (s.accept w).dec = s.dec := rfl
@[simp] theorem State.accept_chunkCrc (w : Word) : (s.accept w).chunkCrc = s.chunkCrc := rfl
@[simp] theorem State.accept_cur (w : Word) : (s.accept w).cur = s.cur := rfl
@[simp] theorem State.accept_chunkIdx (w : Word) : (s.accept w).chunkIdx = s.chunkIdx := rfl
@[simp] theorem State.accept_out (w : Word) : (s.accept w).out = s.out := rfl
@[simp] theorem State.accept_latch (w : Word) : (s.accept w).latch = some ⟨w, s.ops⟩ := rfl
@[simp] theorem State.accept_mem (w : Word) : (s.accept w).mem = s.mem := rfl
@[simp] theorem State.accept_config (w : Word) : (s.accept w).config = s.config := rfl
@[simp] theorem State.accept_agenda (w : Word) : (s.accept w).agenda = s.agenda := rfl
@[simp] theorem State.accept_observed (w : Word) : (s.accept w).observed = s.observed := rfl
@[simp] theorem State.accept_freeIx (w : Word) : (s.accept w).freeIx = s.freeIx := rfl

/-! ### State.rejectCommand -/

@[simp] theorem State.rejectCommand_ctrl : (s.rejectCommand).ctrl = s.ctrl := rfl
@[simp] theorem State.rejectCommand_done : (s.rejectCommand).done = s.done := rfl
@[simp] theorem State.rejectCommand_err : (s.rejectCommand).err = s.err := rfl
@[simp] theorem State.rejectCommand_reject : (s.rejectCommand).reject = true := rfl
@[simp] theorem State.rejectCommand_seq : (s.rejectCommand).seq = s.seq := rfl
@[simp] theorem State.rejectCommand_error : (s.rejectCommand).error = s.error := rfl
@[simp] theorem State.rejectCommand_ops : (s.rejectCommand).ops = s.ops := rfl
@[simp] theorem State.rejectCommand_dec : (s.rejectCommand).dec = s.dec := rfl
@[simp] theorem State.rejectCommand_chunkCrc : (s.rejectCommand).chunkCrc = s.chunkCrc := rfl
@[simp] theorem State.rejectCommand_cur : (s.rejectCommand).cur = s.cur := rfl
@[simp] theorem State.rejectCommand_chunkIdx : (s.rejectCommand).chunkIdx = s.chunkIdx := rfl
@[simp] theorem State.rejectCommand_out : (s.rejectCommand).out = s.out := rfl
@[simp] theorem State.rejectCommand_latch : (s.rejectCommand).latch = s.latch := rfl
@[simp] theorem State.rejectCommand_mem : (s.rejectCommand).mem = s.mem := rfl
@[simp] theorem State.rejectCommand_config : (s.rejectCommand).config = s.config := rfl
@[simp] theorem State.rejectCommand_agenda : (s.rejectCommand).agenda = s.agenda := rfl
@[simp] theorem State.rejectCommand_observed : (s.rejectCommand).observed = s.observed := rfl
@[simp] theorem State.rejectCommand_freeIx : (s.rejectCommand).freeIx = s.freeIx := rfl

/-! ### State.succeed -/

@[simp] theorem State.succeed_ctrl : (s.succeed).ctrl = s.ctrl := rfl
@[simp] theorem State.succeed_done : (s.succeed).done = true := rfl
@[simp] theorem State.succeed_err : (s.succeed).err = s.err := rfl
@[simp] theorem State.succeed_reject : (s.succeed).reject = s.reject := rfl
@[simp] theorem State.succeed_seq : (s.succeed).seq = s.seq := rfl
@[simp] theorem State.succeed_error : (s.succeed).error = s.error := rfl
@[simp] theorem State.succeed_ops : (s.succeed).ops = s.ops := rfl
@[simp] theorem State.succeed_dec : (s.succeed).dec = s.dec := rfl
@[simp] theorem State.succeed_chunkCrc : (s.succeed).chunkCrc = s.chunkCrc := rfl
@[simp] theorem State.succeed_cur : (s.succeed).cur = s.cur := rfl
@[simp] theorem State.succeed_chunkIdx : (s.succeed).chunkIdx = s.chunkIdx := rfl
@[simp] theorem State.succeed_out : (s.succeed).out = s.out := rfl
@[simp] theorem State.succeed_latch : (s.succeed).latch = none := rfl
@[simp] theorem State.succeed_mem : (s.succeed).mem = s.mem := rfl
@[simp] theorem State.succeed_config : (s.succeed).config = s.config := rfl
@[simp] theorem State.succeed_agenda : (s.succeed).agenda = s.agenda := rfl
@[simp] theorem State.succeed_observed : (s.succeed).observed = s.observed := rfl
@[simp] theorem State.succeed_freeIx : (s.succeed).freeIx = s.freeIx := rfl

/-! ### State.recordError -/

@[simp] theorem State.recordError_ctrl (w : Word) (e : CmdError) : (s.recordError w e).ctrl = s.ctrl := rfl
@[simp] theorem State.recordError_done (w : Word) (e : CmdError) : (s.recordError w e).done = s.done := rfl
@[simp] theorem State.recordError_err (w : Word) (e : CmdError) : (s.recordError w e).err = true := rfl
@[simp] theorem State.recordError_reject (w : Word) (e : CmdError) : (s.recordError w e).reject = s.reject := rfl
@[simp] theorem State.recordError_seq (w : Word) (e : CmdError) : (s.recordError w e).seq = if e.failsSeq then .failed else s.seq := rfl
@[simp] theorem State.recordError_error (w : Word) (e : CmdError) : (s.recordError w e).error = ⟨e.code, e.inSeq, w.extractLsb' 24 8, if e.inSeq then e.idx else 0, e.addr⟩ := rfl
@[simp] theorem State.recordError_ops (w : Word) (e : CmdError) : (s.recordError w e).ops = s.ops := rfl
@[simp] theorem State.recordError_dec (w : Word) (e : CmdError) : (s.recordError w e).dec = s.dec := rfl
@[simp] theorem State.recordError_chunkCrc (w : Word) (e : CmdError) : (s.recordError w e).chunkCrc = s.chunkCrc := rfl
@[simp] theorem State.recordError_cur (w : Word) (e : CmdError) : (s.recordError w e).cur = s.cur := rfl
@[simp] theorem State.recordError_chunkIdx (w : Word) (e : CmdError) : (s.recordError w e).chunkIdx = s.chunkIdx := rfl
@[simp] theorem State.recordError_out (w : Word) (e : CmdError) : (s.recordError w e).out = s.out := rfl
@[simp] theorem State.recordError_latch (w : Word) (e : CmdError) : (s.recordError w e).latch = none := rfl
@[simp] theorem State.recordError_mem (w : Word) (e : CmdError) : (s.recordError w e).mem = s.mem := rfl
@[simp] theorem State.recordError_config (w : Word) (e : CmdError) : (s.recordError w e).config = s.config := rfl
@[simp] theorem State.recordError_agenda (w : Word) (e : CmdError) : (s.recordError w e).agenda = s.agenda := rfl
@[simp] theorem State.recordError_observed (w : Word) (e : CmdError) : (s.recordError w e).observed = s.observed := rfl
@[simp] theorem State.recordError_freeIx (w : Word) (e : CmdError) : (s.recordError w e).freeIx = s.freeIx := rfl

/-! ### State.setCrcState -/

@[simp] theorem State.setCrcState_ctrl (c : Word) : (s.setCrcState c).ctrl = s.ctrl := rfl
@[simp] theorem State.setCrcState_done (c : Word) : (s.setCrcState c).done = s.done := rfl
@[simp] theorem State.setCrcState_err (c : Word) : (s.setCrcState c).err = s.err := rfl
@[simp] theorem State.setCrcState_reject (c : Word) : (s.setCrcState c).reject = s.reject := rfl
@[simp] theorem State.setCrcState_seq (c : Word) : (s.setCrcState c).seq = s.seq := rfl
@[simp] theorem State.setCrcState_error (c : Word) : (s.setCrcState c).error = s.error := rfl
@[simp] theorem State.setCrcState_ops (c : Word) : (s.setCrcState c).ops = { s.ops with crcState := c } := rfl
@[simp] theorem State.setCrcState_dec (c : Word) : (s.setCrcState c).dec = s.dec := rfl
@[simp] theorem State.setCrcState_chunkCrc (c : Word) : (s.setCrcState c).chunkCrc = s.chunkCrc := rfl
@[simp] theorem State.setCrcState_cur (c : Word) : (s.setCrcState c).cur = s.cur := rfl
@[simp] theorem State.setCrcState_chunkIdx (c : Word) : (s.setCrcState c).chunkIdx = s.chunkIdx := rfl
@[simp] theorem State.setCrcState_out (c : Word) : (s.setCrcState c).out = s.out := rfl
@[simp] theorem State.setCrcState_latch (c : Word) : (s.setCrcState c).latch = s.latch := rfl
@[simp] theorem State.setCrcState_mem (c : Word) : (s.setCrcState c).mem = s.mem := rfl
@[simp] theorem State.setCrcState_config (c : Word) : (s.setCrcState c).config = s.config := rfl
@[simp] theorem State.setCrcState_agenda (c : Word) : (s.setCrcState c).agenda = s.agenda := rfl
@[simp] theorem State.setCrcState_observed (c : Word) : (s.setCrcState c).observed = s.observed := rfl
@[simp] theorem State.setCrcState_freeIx (c : Word) : (s.setCrcState c).freeIx = s.freeIx := rfl

/-! ### State.emit -/

@[simp] theorem State.emit_ctrl (b : List Byte) : (s.emit b).ctrl = s.ctrl := rfl
@[simp] theorem State.emit_done (b : List Byte) : (s.emit b).done = s.done := rfl
@[simp] theorem State.emit_err (b : List Byte) : (s.emit b).err = s.err := rfl
@[simp] theorem State.emit_reject (b : List Byte) : (s.emit b).reject = s.reject := rfl
@[simp] theorem State.emit_seq (b : List Byte) : (s.emit b).seq = s.seq := rfl
@[simp] theorem State.emit_error (b : List Byte) : (s.emit b).error = s.error := rfl
@[simp] theorem State.emit_ops (b : List Byte) : (s.emit b).ops = s.ops := rfl
@[simp] theorem State.emit_dec (b : List Byte) : (s.emit b).dec = s.dec := rfl
@[simp] theorem State.emit_chunkCrc (b : List Byte) : (s.emit b).chunkCrc = s.chunkCrc := rfl
@[simp] theorem State.emit_cur (b : List Byte) : (s.emit b).cur = s.cur := rfl
@[simp] theorem State.emit_chunkIdx (b : List Byte) : (s.emit b).chunkIdx = s.chunkIdx := rfl
@[simp] theorem State.emit_out (b : List Byte) : (s.emit b).out = ⟨s.out.ptr + toReg b.length, s.out.rem - toReg b.length, s.out.count + toReg b.length⟩ := rfl
@[simp] theorem State.emit_latch (b : List Byte) : (s.emit b).latch = s.latch := rfl
@[simp] theorem State.emit_mem (b : List Byte) : (s.emit b).mem = s.mem.writeBytes s.out.ptr.toNat b := rfl
@[simp] theorem State.emit_config (b : List Byte) : (s.emit b).config = s.config := rfl
@[simp] theorem State.emit_agenda (b : List Byte) : (s.emit b).agenda = s.agenda := rfl
@[simp] theorem State.emit_observed (b : List Byte) : (s.emit b).observed = s.observed := rfl
@[simp] theorem State.emit_freeIx (b : List Byte) : (s.emit b).freeIx = s.freeIx := rfl

/-! ### State.commitChunk -/

@[simp] theorem State.commitChunk_ctrl (k : Chunk) : (s.commitChunk k).ctrl = s.ctrl := rfl
@[simp] theorem State.commitChunk_done (k : Chunk) : (s.commitChunk k).done = s.done := rfl
@[simp] theorem State.commitChunk_err (k : Chunk) : (s.commitChunk k).err = s.err := rfl
@[simp] theorem State.commitChunk_reject (k : Chunk) : (s.commitChunk k).reject = s.reject := rfl
@[simp] theorem State.commitChunk_seq (k : Chunk) : (s.commitChunk k).seq = s.seq := rfl
@[simp] theorem State.commitChunk_error (k : Chunk) : (s.commitChunk k).error = s.error := rfl
@[simp] theorem State.commitChunk_ops (k : Chunk) : (s.commitChunk k).ops = s.ops := rfl
@[simp] theorem State.commitChunk_dec (k : Chunk) : (s.commitChunk k).dec = ⟨k.len, k.chunkType, toReg k.dataAddr, k.storedCrc⟩ := rfl
@[simp] theorem State.commitChunk_chunkCrc (k : Chunk) : (s.commitChunk k).chunkCrc = k.crc := rfl
@[simp] theorem State.commitChunk_cur (k : Chunk) : (s.commitChunk k).cur = ⟨toReg k.next, toReg k.rem⟩ := rfl
@[simp] theorem State.commitChunk_chunkIdx (k : Chunk) : (s.commitChunk k).chunkIdx = s.chunkIdx := rfl
@[simp] theorem State.commitChunk_out (k : Chunk) : (s.commitChunk k).out = s.out := rfl
@[simp] theorem State.commitChunk_latch (k : Chunk) : (s.commitChunk k).latch = s.latch := rfl
@[simp] theorem State.commitChunk_mem (k : Chunk) : (s.commitChunk k).mem = s.mem := rfl
@[simp] theorem State.commitChunk_config (k : Chunk) : (s.commitChunk k).config = s.config := rfl
@[simp] theorem State.commitChunk_agenda (k : Chunk) : (s.commitChunk k).agenda = s.agenda := rfl
@[simp] theorem State.commitChunk_observed (k : Chunk) : (s.commitChunk k).observed = s.observed := rfl
@[simp] theorem State.commitChunk_freeIx (k : Chunk) : (s.commitChunk k).freeIx = s.freeIx := rfl

/-! ### State.writeStatus -/

@[simp] theorem State.writeStatus_ctrl (v : Word) : (s.writeStatus v).ctrl = s.ctrl := rfl
@[simp] theorem State.writeStatus_done (v : Word) : (s.writeStatus v).done = (s.done && !v.getLsbD 1) := rfl
@[simp] theorem State.writeStatus_err (v : Word) : (s.writeStatus v).err = (s.err && !v.getLsbD 2) := rfl
@[simp] theorem State.writeStatus_reject (v : Word) : (s.writeStatus v).reject = (s.reject && !v.getLsbD 3) := rfl
@[simp] theorem State.writeStatus_seq (v : Word) : (s.writeStatus v).seq = s.seq := rfl
@[simp] theorem State.writeStatus_error (v : Word) : (s.writeStatus v).error = s.error := rfl
@[simp] theorem State.writeStatus_ops (v : Word) : (s.writeStatus v).ops = s.ops := rfl
@[simp] theorem State.writeStatus_dec (v : Word) : (s.writeStatus v).dec = s.dec := rfl
@[simp] theorem State.writeStatus_chunkCrc (v : Word) : (s.writeStatus v).chunkCrc = s.chunkCrc := rfl
@[simp] theorem State.writeStatus_cur (v : Word) : (s.writeStatus v).cur = s.cur := rfl
@[simp] theorem State.writeStatus_chunkIdx (v : Word) : (s.writeStatus v).chunkIdx = s.chunkIdx := rfl
@[simp] theorem State.writeStatus_out (v : Word) : (s.writeStatus v).out = s.out := rfl
@[simp] theorem State.writeStatus_latch (v : Word) : (s.writeStatus v).latch = s.latch := rfl
@[simp] theorem State.writeStatus_mem (v : Word) : (s.writeStatus v).mem = s.mem := rfl
@[simp] theorem State.writeStatus_config (v : Word) : (s.writeStatus v).config = s.config := rfl
@[simp] theorem State.writeStatus_agenda (v : Word) : (s.writeStatus v).agenda = s.agenda := rfl
@[simp] theorem State.writeStatus_observed (v : Word) : (s.writeStatus v).observed = s.observed := rfl
@[simp] theorem State.writeStatus_freeIx (v : Word) : (s.writeStatus v).freeIx = s.freeIx := rfl

/-! ### State.observe -/

@[simp] theorem State.observe_ctrl (o : Observation) : (s.observe o).ctrl = s.ctrl := rfl
@[simp] theorem State.observe_done (o : Observation) : (s.observe o).done = s.done := rfl
@[simp] theorem State.observe_err (o : Observation) : (s.observe o).err = s.err := rfl
@[simp] theorem State.observe_reject (o : Observation) : (s.observe o).reject = s.reject := rfl
@[simp] theorem State.observe_seq (o : Observation) : (s.observe o).seq = s.seq := rfl
@[simp] theorem State.observe_error (o : Observation) : (s.observe o).error = s.error := rfl
@[simp] theorem State.observe_ops (o : Observation) : (s.observe o).ops = s.ops := rfl
@[simp] theorem State.observe_dec (o : Observation) : (s.observe o).dec = s.dec := rfl
@[simp] theorem State.observe_chunkCrc (o : Observation) : (s.observe o).chunkCrc = s.chunkCrc := rfl
@[simp] theorem State.observe_cur (o : Observation) : (s.observe o).cur = s.cur := rfl
@[simp] theorem State.observe_chunkIdx (o : Observation) : (s.observe o).chunkIdx = s.chunkIdx := rfl
@[simp] theorem State.observe_out (o : Observation) : (s.observe o).out = s.out := rfl
@[simp] theorem State.observe_latch (o : Observation) : (s.observe o).latch = s.latch := rfl
@[simp] theorem State.observe_mem (o : Observation) : (s.observe o).mem = s.mem := rfl
@[simp] theorem State.observe_config (o : Observation) : (s.observe o).config = s.config := rfl
@[simp] theorem State.observe_agenda (o : Observation) : (s.observe o).agenda = s.agenda := rfl
@[simp] theorem State.observe_observed (o : Observation) : (s.observe o).observed = o :: s.observed := rfl
@[simp] theorem State.observe_freeIx (o : Observation) : (s.observe o).freeIx = s.freeIx := rfl

/-! ### State.popTurn -/

@[simp] theorem State.popTurn_ctrl : (s.popTurn).ctrl = s.ctrl := rfl
@[simp] theorem State.popTurn_done : (s.popTurn).done = s.done := rfl
@[simp] theorem State.popTurn_err : (s.popTurn).err = s.err := rfl
@[simp] theorem State.popTurn_reject : (s.popTurn).reject = s.reject := rfl
@[simp] theorem State.popTurn_seq : (s.popTurn).seq = s.seq := rfl
@[simp] theorem State.popTurn_error : (s.popTurn).error = s.error := rfl
@[simp] theorem State.popTurn_ops : (s.popTurn).ops = s.ops := rfl
@[simp] theorem State.popTurn_dec : (s.popTurn).dec = s.dec := rfl
@[simp] theorem State.popTurn_chunkCrc : (s.popTurn).chunkCrc = s.chunkCrc := rfl
@[simp] theorem State.popTurn_cur : (s.popTurn).cur = s.cur := rfl
@[simp] theorem State.popTurn_chunkIdx : (s.popTurn).chunkIdx = s.chunkIdx := rfl
@[simp] theorem State.popTurn_out : (s.popTurn).out = s.out := rfl
@[simp] theorem State.popTurn_latch : (s.popTurn).latch = s.latch := rfl
@[simp] theorem State.popTurn_mem : (s.popTurn).mem = s.mem := rfl
@[simp] theorem State.popTurn_config : (s.popTurn).config = s.config := rfl
@[simp] theorem State.popTurn_agenda : (s.popTurn).agenda = s.agenda.tail := rfl
@[simp] theorem State.popTurn_observed : (s.popTurn).observed = s.observed := rfl
@[simp] theorem State.popTurn_freeIx : (s.popTurn).freeIx = s.freeIx := rfl

/-! ### State.doReset -/

@[simp] theorem State.doReset_ctrl : s.doReset.ctrl = State.reset.ctrl := rfl
@[simp] theorem State.doReset_done : s.doReset.done = State.reset.done := rfl
@[simp] theorem State.doReset_err : s.doReset.err = State.reset.err := rfl
@[simp] theorem State.doReset_reject : s.doReset.reject = State.reset.reject := rfl
@[simp] theorem State.doReset_seq : s.doReset.seq = State.reset.seq := rfl
@[simp] theorem State.doReset_error : s.doReset.error = State.reset.error := rfl
@[simp] theorem State.doReset_ops : s.doReset.ops = State.reset.ops := rfl
@[simp] theorem State.doReset_dec : s.doReset.dec = State.reset.dec := rfl
@[simp] theorem State.doReset_chunkCrc : s.doReset.chunkCrc = State.reset.chunkCrc := rfl
@[simp] theorem State.doReset_cur : s.doReset.cur = State.reset.cur := rfl
@[simp] theorem State.doReset_chunkIdx : s.doReset.chunkIdx = State.reset.chunkIdx := rfl
@[simp] theorem State.doReset_out : s.doReset.out = State.reset.out := rfl
@[simp] theorem State.doReset_latch : s.doReset.latch = State.reset.latch := rfl
@[simp] theorem State.doReset_mem : s.doReset.mem = s.mem.writeBytes s.abandonedWindow.base (freeBytes s.freeIx s.abandonedWindow.len) := rfl
@[simp] theorem State.doReset_config : s.doReset.config = s.config := rfl
@[simp] theorem State.doReset_agenda : s.doReset.agenda = s.agenda := rfl
@[simp] theorem State.doReset_observed : s.doReset.observed = s.observed := rfl
@[simp] theorem State.doReset_freeIx : s.doReset.freeIx = s.freeIx + s.abandonedWindow.len := rfl

end Sys2Proof.Machine
end

