-- ==== Sys2Proof/Laws/Complete.lean ====
section
/-! SUPPORT. What a completion can answer (40_command.md rule R405), and what each command's rule can return: one
inversion lemma per rule, cited instead of unfolding it. -/

namespace Sys2Proof.Machine

/-- The completion of a rule that commits. -/
theorem complete_ok {s t : State} {l : Latch} {rule : Latch → CmdResult} (hl : s.latch = some l)
    (h : rule l = .ok t) : complete s rule = .next t.succeed := by
  simp [complete, hl, h]

/-- The completion of a rule that raises. -/
theorem complete_raise {s : State} {l : Latch} {e : CmdError} {rule : Latch → CmdResult} (hl : s.latch = some l)
    (h : rule l = .raise e) : complete s rule = .next (s.recordError l.word e) := by
  simp [complete, hl, h]

/-- The completion of a rule that stops. -/
theorem complete_stop {s : State} {l : Latch} {f : Fault} {rule : Latch → CmdResult} (hl : s.latch = some l)
    (h : rule l = .stop f) : complete s rule = .fault f := by
  simp [complete, hl, h]

/-- Everything a completion that answers a next state has done. -/
theorem complete_next {s t : State} {rule : Latch → CmdResult} (h : complete s rule = .next t) :
    ∃ l, s.latch = some l ∧
      ((∃ u, rule l = .ok u ∧ t = u.succeed) ∨ ∃ e, rule l = .raise e ∧ t = s.recordError l.word e) := by
  unfold complete at h
  split at h
  · cases h
  · rename_i l hl
    refine ⟨l, hl, ?_⟩
    split at h <;> cases h
    · exact .inl ⟨_, ‹_›, rfl⟩
    · exact .inr ⟨_, ‹_›, rfl⟩

/-- `inRange` as the spec writes it (20_memory.md rule R205). -/
theorem inRange_iff (c : Config) (w : Window) : inRange c w = true ↔ w.len = 0 ∨ w.base + w.len ≤ c.memSize := by
  unfold inRange
  split <;> simp_all

theorem Window.contains_iff (w : Window) (a : Nat) : w.contains a = true ↔ w.base ≤ a ∧ a < w.base + w.len := by
  simp [Window.contains]

@[simp] theorem Window.empty_contains (a : Nat) : Window.empty.contains a = false := by
  simp [Window.contains, Window.empty]

/-- Two windows overlap exactly when they share an address (43_chunk_codec.md rule R704). -/
theorem Window.overlaps_iff (v w : Window) :
    v.overlaps w = true ↔ ∃ a, v.contains a = true ∧ w.contains a = true := by
  simp only [Window.overlaps, Window.contains_iff, Bool.and_eq_true, decide_eq_true_eq]
  constructor
  · rintro ⟨⟨⟨h1, h2⟩, h3⟩, h4⟩
    exact ⟨max v.base w.base, by omega⟩
  · rintro ⟨a, h1, h2⟩
    omega

/-! ### The rules -/

/-- FRAME's checks (43_chunk_codec.md rule R702). -/
theorem frameCheck_eq_none {s : State} {l : Latch} :
    frameCheck s l = none ↔ letters4 l.ops.chunkType = true ∧ inRange s.config l.ops.source = true ∧
      frameSize l.ops ≤ s.out.rem.toNat := by
  unfold frameCheck
  split_ifs <;> simp_all

/-- What FRAME's checks raise. -/
theorem frameCheck_eq_some {s : State} {l : Latch} {e : CmdError} (h : frameCheck s l = some e) :
    e.inSeq = false ∧ e.failsSeq = false ∧ e.code ≠ .none := by
  unfold frameCheck at h
  split_ifs at h <;> cases h <;> simp [busErrorAt]

theorem sigEmitCheck_eq_none {s : State} : sigEmitCheck s = none ↔ 8 ≤ s.out.rem.toNat := by
  unfold sigEmitCheck
  split_ifs <;> simp_all

theorem sigEmitCheck_eq_some {s : State} {e : CmdError} (h : sigEmitCheck s = some e) :
    e = { code := .dstOverflow, addr := s.out.ptr } := by
  unfold sigEmitCheck at h
  split_ifs at h
  cases h
  rfl

@[simp] theorem bytesBe32_length (w : Word) : (bytesBe32 w).length = 4 := rfl

@[simp] theorem chunkBytes_length (len t : Word) (d : List Byte) : (chunkBytes len t d).length = 12 + d.length := by
  simp [chunkBytes]
  omega

theorem frameRule_ok {s t : State} {l : Latch} (h : frameRule s l = .ok t) :
    frameCheck s l = none ∧ l.ops.source.overlaps (s.out.window (frameSize l.ops)) = false ∧
      t = { s.emit (chunkBytes l.ops.srcLen l.ops.chunkType (s.mem.readBytes l.ops.srcAddr.toNat l.ops.srcLen.toNat))
        with chunkCrc := codecCrc l.ops.chunkType (s.mem.readBytes l.ops.srcAddr.toNat l.ops.srcLen.toNat) } := by
  unfold frameRule at h
  split at h
  · cases h
  · split at h <;> cases h
    simp_all

theorem frameRule_raise {s : State} {l : Latch} {e : CmdError} (h : frameRule s l = .raise e) :
    frameCheck s l = some e := by
  unfold frameRule at h
  split at h
  · cases h
    assumption
  · split at h <;> cases h

/-- What the chunk decoder returns, and what it checked (43_chunk_codec.md rule R711). -/
theorem decodeChunk_ok {m : Memory} {a r : Nat} {k : Chunk} (h : decodeChunk m a r = .ok k) :
    12 + (m.readBe32 a).toNat ≤ r ∧ letters4 (m.readBe32 (a + 4)) = true ∧
      codecCrc (m.readBe32 (a + 4)) (m.readBytes (a + 8) (m.readBe32 a).toNat) =
        m.readBe32 (a + 8 + (m.readBe32 a).toNat) ∧
      k = ⟨m.readBe32 a, m.readBe32 (a + 4), a + 8, m.readBe32 (a + 8 + (m.readBe32 a).toNat),
        m.readBe32 (a + 8 + (m.readBe32 a).toNat), a + 12 + (m.readBe32 a).toNat,
        r - (12 + (m.readBe32 a).toNat)⟩ := by
  unfold decodeChunk at h
  split at h
  · cases h
  · dsimp only at h
    split at h
    · cases h
    · split at h
      · cases h
      · split at h <;> cases h
        simp_all
        omega

/-- The errors of the chunk decoder. -/
theorem decodeChunk_error {m : Memory} {a r : Nat} {e : ErrCode} (h : decodeChunk m a r = .error e) :
    e = .unexpectedEof ∨ e = .invalidChunkType ∨ e = .crcMismatch := by
  unfold decodeChunk at h
  split at h
  · cases h
    exact .inl rfl
  · dsimp only at h
    split at h
    · cases h
      exact .inl rfl
    · split at h
      · cases h
        exact .inr (.inl rfl)
      · split at h <;> cases h
        exact .inr (.inr rfl)

theorem deframeRule_ok {s t : State} {l : Latch} (h : deframeRule s l = .ok t) :
    inRange s.config l.ops.source = true ∧
      ∃ k, decodeChunk s.mem l.ops.srcAddr.toNat l.ops.srcLen.toNat = .ok k ∧ t = s.commitChunk k := by
  unfold deframeRule at h
  split at h
  · cases h
  · split at h <;> cases h
    exact ⟨by simp_all, _, ‹_›, rfl⟩

theorem deframeRule_raise {s : State} {l : Latch} {e : CmdError} (h : deframeRule s l = .raise e) :
    e.inSeq = false ∧ e.failsSeq = false ∧ e.code ≠ .none := by
  unfold deframeRule at h
  split at h
  · cases h
    simp [busErrorAt]
  · split at h <;> cases h
    rcases decodeChunk_error ‹_› with rfl | rfl | rfl <;> simp

theorem seqStartRule_ok {s t : State} {l : Latch} (h : seqStartRule s l = .ok t) :
    inRange s.config l.ops.source = true ∧ signatureOk s.mem l.ops.source = true ∧
      t = { s with
        cur := ⟨toReg (l.ops.srcAddr.toNat + 8), toReg (l.ops.srcLen.toNat - 8)⟩
        chunkIdx := 0
        seq := .stream } := by
  unfold seqStartRule at h
  split_ifs at h
  cases h
  simp_all

theorem seqStartRule_raise {s : State} {l : Latch} {e : CmdError} (h : seqStartRule s l = .raise e) :
    e.inSeq = false ∧ e.failsSeq = true ∧ e.code ≠ .none := by
  unfold seqStartRule at h
  split_ifs at h <;> cases h <;> simp [busErrorAt]

theorem seqNextRule_ok {s t : State} {l : Latch} (h : seqNextRule s l = .ok t) :
    s.seq.isOpen = true ∧ ((s.cur.rem = 0 ∧ t = { s with seq := .ended }) ∨
      (s.cur.rem ≠ 0 ∧ inRange s.config s.cur.window = true ∧
        ∃ k, decodeChunk s.mem s.cur.addr.toNat s.cur.rem.toNat = .ok k ∧
          t = { s.commitChunk k with chunkIdx := s.chunkIdx + 1, seq := .stream })) := by
  unfold seqNextRule at h
  split at h
  · cases h
  · split at h
    · cases h
      exact ⟨by simp_all, .inl ⟨‹_›, rfl⟩⟩
    · split at h
      · cases h
      · split at h <;> cases h
        exact ⟨by simp_all, .inr ⟨‹_›, by simp_all, _, ‹_›, rfl⟩⟩

theorem seqNextRule_raise {s : State} {l : Latch} {e : CmdError} (h : seqNextRule s l = .raise e) :
    (s.seq.isOpen = false ∧ e = { code := .sequenceError, addr := 0 }) ∨
      (s.seq.isOpen = true ∧ s.cur.rem ≠ 0 ∧ ∃ c, c ≠ .none ∧ e = chunkErrorAt c s ∧
        (inRange s.config s.cur.window = false ∨
          decodeChunk s.mem s.cur.addr.toNat s.cur.rem.toNat = .error c)) := by
  unfold seqNextRule at h
  split at h
  · cases h
    exact .inl ⟨by simp_all, rfl⟩
  · split at h
    · cases h
    · split at h
      · cases h
        exact .inr ⟨by simp_all, ‹_›, _, by simp, rfl, .inl (by simp_all)⟩
      · split at h <;> cases h
        refine .inr ⟨by simp_all, ‹_›, _, ?_, rfl, .inr ‹_›⟩
        rcases decodeChunk_error ‹_› with rfl | rfl | rfl <;> simp

/-- SEQ_NEXT with nothing left (44_sequencer.md rule R812). -/
theorem seqNextRule_end {s : State} (l : Latch) (hq : s.seq.isOpen = true) (h : s.cur.rem = 0) :
    seqNextRule s l = .ok { s with seq := .ended } := by
  simp [seqNextRule, hq, h]

/-- SEQ_NEXT of a window in range is the chunk decoder's answer (44_sequencer.md rules R811, R813). -/
theorem seqNextRule_decode {s : State} (l : Latch) (hq : s.seq.isOpen = true) (h : s.cur.rem ≠ 0)
    (hr : inRange s.config s.cur.window = true) :
    seqNextRule s l =
      match decodeChunk s.mem s.cur.addr.toNat s.cur.rem.toNat with
      | .error e => .raise (chunkErrorAt e s)
      | .ok k => .ok { s.commitChunk k with chunkIdx := s.chunkIdx + 1, seq := .stream } := by
  unfold seqNextRule
  exact (if_neg (by simp [hq])).trans ((if_neg h).trans (if_neg (by simp [hr])))

theorem outStartRule_ok {s t : State} {l : Latch} (h : outStartRule s l = .ok t) :
    inRange s.config l.ops.destination = true ∧ t = { s with out := ⟨l.ops.dstAddr, l.ops.dstCap, 0⟩ } := by
  unfold outStartRule at h
  split_ifs at h
  cases h
  simp_all

theorem outStartRule_raise {s : State} {l : Latch} {e : CmdError} (h : outStartRule s l = .raise e) :
    e = busErrorAt l.ops.dstAddr := by
  unfold outStartRule at h
  split_ifs at h
  cases h
  rfl

theorem sigEmitRule_ok {s t : State} {l : Latch} (h : sigEmitRule s l = .ok t) :
    8 ≤ s.out.rem.toNat ∧ t = s.emit sig := by
  unfold sigEmitRule at h
  split at h <;> cases h
  exact ⟨sigEmitCheck_eq_none.1 ‹_›, rfl⟩

theorem sigEmitRule_raise {s : State} {l : Latch} {e : CmdError} (h : sigEmitRule s l = .raise e) :
    e = { code := .dstOverflow, addr := s.out.ptr } := by
  unfold sigEmitRule at h
  split at h <;> cases h
  exact sigEmitCheck_eq_some ‹_›

theorem crcBufRule_ok {s t : State} {l : Latch} (h : crcBufRule s l = .ok t) :
    inRange s.config l.ops.source = true ∧
      t = s.setCrcState (fold l.ops.crcState (s.mem.readBytes l.ops.srcAddr.toNat l.ops.srcLen.toNat)) := by
  unfold crcBufRule at h
  split_ifs at h
  cases h
  simp_all

theorem crcBufRule_raise {s : State} {l : Latch} {e : CmdError} (h : crcBufRule s l = .raise e) :
    e = busErrorAt l.ops.srcAddr := by
  unfold crcBufRule at h
  split_ifs at h
  cases h
  rfl

theorem typeCheckRule_ok {s t : State} {l : Latch} (h : typeCheckRule s l = .ok t) :
    letters4 l.ops.chunkType = true ∧ t = s := by
  unfold typeCheckRule at h
  split_ifs at h
  cases h
  simp_all

theorem typeCheckRule_raise {s : State} {l : Latch} {e : CmdError} (h : typeCheckRule s l = .raise e) :
    e = { code := .invalidChunkType, addr := 0 } := by
  unfold typeCheckRule at h
  split_ifs at h
  cases h
  rfl

end Sys2Proof.Machine
end

