-- ==== Sys2Proof/Laws/Step.lean ====
section
/-! SUPPORT. What one step can do: one inversion lemma per agent (00_scope.md rule R7), so that an invariant is a case
analysis and no proof unfolds `step`. -/

namespace Sys2Proof.Machine

@[simp] theorem nextTurn_nil {s : State} (h : s.agenda = []) : s.nextTurn = .engine := by
  simp [State.nextTurn, h]

@[simp] theorem nextTurn_cons {s : State} {t : Turn} {rest : List Turn} (h : s.agenda = t :: rest) :
    s.nextTurn = t := by
  simp [State.nextTurn, h]

theorem step_of_turn {s : State} {u : Turn} (h : s.nextTurn = u) : step s = takeTurn u s.popTurn := by
  simp [step, h]

/-- With no command in flight the engine does nothing (60_exceptions.md rule R945). -/
theorem engineTurn_idle {s : State} (h : s.latch = none) : engineTurn s = .next s := by
  simp [engineTurn, h]

/-- The engine's turn runs the command the latched word decodes to (40_command.md rule R405). -/
theorem engineTurn_command {s : State} {l : Latch} {i : Instr} (hl : s.latch = some l)
    (hi : decode l.word = .ok i) : engineTurn s = exec i s := by
  simp [engineTurn, hl, hi]

/-- The engine's turn on an Illegal word (40_command.md rule R407). -/
theorem engineTurn_illegal {s : State} {l : Latch} {r : IllegalWord} (hl : s.latch = some l)
    (hr : decode l.word = .error r) : engineTurn s = execIllegal s := by
  simp [engineTurn, hl, hr]

/-- Everything an engine turn that answers a next state has done. -/
theorem engineTurn_next {s t : State} (h : engineTurn s = .next t) :
    (s.latch = none ∧ t = s) ∨
      ∃ l, s.latch = some l ∧
        ((∃ i, decode l.word = .ok i ∧ exec i s = .next t) ∨
          ((∃ r, decode l.word = .error r) ∧
            t = s.recordError l.word { code := .illegalCommand, addr := 0 })) := by
  unfold engineTurn at h
  split at h
  · cases h
    exact .inl ⟨‹_›, rfl⟩
  · rename_i l hl
    refine .inr ⟨l, hl, ?_⟩
    split at h
    · exact .inl ⟨_, ‹_›, h⟩
    · obtain ⟨l', hl', ⟨u, hu, -⟩ | ⟨e, he, rfl⟩⟩ := complete_next h
      · cases hu
      · cases he
        rw [hl] at hl'
        cases hl'
        exact .inr ⟨⟨_, ‹_›⟩, rfl⟩

/-- On the host's turn with a register write, the step is that port write (20_memory.md rule R220). -/
theorem step_portWrite {s : State} {offset : BitVec 7} {size : AccessSize} {v : Word}
    (h : s.nextTurn = .host (.portWrite offset size v)) : step s = .next (s.popTurn.portWrite offset size v) :=
  step_of_turn h

/-- Everything a register-port write can do. -/
theorem portWrite_cases (s : State) (offset : BitVec 7) (size : AccessSize) (v : Word) :
    s.portWrite offset size v = s ∨
      (accessed offset size = some .ctrl ∧ s.portWrite offset size v = { s with ctrl := v.setWidth 3 }) ∨
      (accessed offset size = some .status ∧ s.portWrite offset size v = s.writeStatus v) ∨
      (∃ o, s.portWrite offset size v = { s with ops := o }) ∨
      (accessed offset size = some .cmd ∧ s.busy = false ∧ s.portWrite offset size v = s.accept v) ∨
      (accessed offset size = some .cmd ∧ s.busy = true ∧ s.portWrite offset size v = s.rejectCommand) := by
  unfold State.portWrite
  split
  · rename_i r hr
    rw [hr]
    cases r
    case ctrl => exact .inr (.inl ⟨rfl, rfl⟩)
    case status => exact .inr (.inr (.inl ⟨rfl, rfl⟩))
    case cmd =>
      by_cases hb : s.busy = true
      · exact .inr (.inr (.inr (.inr (.inr ⟨rfl, hb, by simp [State.writeReg, State.writeCmd, hb]⟩))))
      · exact .inr (.inr (.inr (.inr (.inl ⟨rfl, by simpa using hb, by simp [State.writeReg, State.writeCmd, hb]⟩))))
    case srcAddr => exact .inr (.inr (.inr (.inl ⟨_, rfl⟩)))
    case srcLen => exact .inr (.inr (.inr (.inl ⟨_, rfl⟩)))
    case dstAddr => exact .inr (.inr (.inr (.inl ⟨_, rfl⟩)))
    case dstCap => exact .inr (.inr (.inr (.inl ⟨_, rfl⟩)))
    case type => exact .inr (.inr (.inr (.inl ⟨_, rfl⟩)))
    case crcState => exact .inr (.inr (.inr (.inl ⟨_, rfl⟩)))
    all_goals exact .inl rfl
  · exact .inl rfl

theorem hasAddress_iff (s : State) (a : Word) : s.hasAddress a = true ↔ a.toNat < s.config.memSize := by
  simp [State.hasAddress]

/-- The in-flight command of a busy state whose latched word decodes. -/
theorem inFlight_eq {s : State} {l : Latch} {i : Instr} (hl : s.latch = some l) (hi : decode l.word = .ok i) :
    s.inFlight = some (i, l) := by
  simp [State.inFlight, hl, hi]

theorem inFlight_some {s : State} {l : Latch} {i : Instr} (h : s.inFlight = some (i, l)) :
    s.latch = some l ∧ decode l.word = .ok i := by
  unfold State.inFlight at h
  split at h
  · cases h
  · split at h <;> cases h
    exact ⟨‹_›, ‹_›⟩

/-- The host's read of an ordinary byte (20_memory.md rule R235). -/
theorem hostMemRead_ordinary {s : State} {a : Word} (ha : a.toNat < s.config.memSize)
    (ho : s.inFlightOutput a.toNat = false) : hostMemRead a s = .next (s.observe (.mem (s.mem.read a.toNat))) := by
  have := (hasAddress_iff s a).2 ha
  simp [hostMemRead, this, ho]

/-- The host's read of a byte of an in-flight output window (20_memory.md rule R234). -/
theorem hostMemRead_output {s : State} {a : Word} (ha : a.toNat < s.config.memSize)
    (ho : s.inFlightOutput a.toNat = true) :
    hostMemRead a s = .next { s.observe (.mem (Config.freeByte s.freeIx)) with freeIx := s.freeIx + 1 } := by
  have := (hasAddress_iff s a).2 ha
  simp [hostMemRead, this, ho]

/-- The host's write of an ordinary byte (20_memory.md rule R235). -/
theorem hostMemWrite_ordinary {s : State} {a : Word} {b : Byte} (ha : a.toNat < s.config.memSize)
    (ho : s.inFlightTouches a.toNat = false) :
    hostMemWrite a b s = .next { s with mem := s.mem.write a.toNat b } := by
  have := (hasAddress_iff s a).2 ha
  simp [hostMemWrite, this, ho]

/-- The host's write into an in-flight window (60_exceptions.md rule R931). -/
theorem hostMemWrite_race {s : State} {a : Word} {b : Byte} (ho : s.inFlightTouches a.toNat = true) :
    hostMemWrite a b s = .fault .hostRace := by
  simp [hostMemWrite, ho]

/-- A read outside the in-flight windows is also outside the in-flight output window. -/
theorem inFlightOutput_of_touches {s : State} {a : Nat} (h : s.inFlightTouches a = false) :
    s.inFlightOutput a = false := by
  unfold State.inFlightTouches at h
  unfold State.inFlightOutput
  split <;> simp_all

/-- An address outside the output window of any command in flight. -/
theorem inFlightOutput_eq_false {s : State} {a : Nat}
    (h : ∀ i l, s.inFlight = some (i, l) → (outputWindow i l s).contains a = false) : s.inFlightOutput a = false := by
  unfold State.inFlightOutput
  split
  · rfl
  · exact h _ _ ‹_›

/-- Everything a host memory read that answers a next state has done. -/
theorem hostMemRead_next {s t : State} {a : Word} (h : hostMemRead a s = .next t) :
    a.toNat < s.config.memSize ∧
      ((s.inFlightOutput a.toNat = true ∧
          t = { s.observe (.mem (Config.freeByte s.freeIx)) with freeIx := s.freeIx + 1 }) ∨
        (s.inFlightOutput a.toNat = false ∧ t = s.observe (.mem (s.mem.read a.toNat)))) := by
  unfold hostMemRead at h
  split_ifs at h <;> cases h <;> simp_all [State.hasAddress]

/-- Everything a host memory write that answers a next state has done. -/
theorem hostMemWrite_next {s t : State} {a : Word} {b : Byte} (h : hostMemWrite a b s = .next t) :
    a.toNat < s.config.memSize ∧ s.inFlightTouches a.toNat = false ∧
      t = { s with mem := s.mem.write a.toNat b } := by
  unfold hostMemWrite at h
  split_ifs at h
  cases h
  simp_all [State.hasAddress]

/-- Everything a host step that answers a next state has done. -/
theorem hostStep_next {s t : State} {h : HostStep} (hs : hostStep h s = .next t) :
    (∃ v, t = s.observe (.reg v)) ∨ (∃ o z v, h = .portWrite o z v ∧ t = s.portWrite o z v) ∨
      (∃ a, h = .memRead a ∧ hostMemRead a s = .next t) ∨
      ∃ a b, h = .memWrite a b ∧ hostMemWrite a b s = .next t := by
  cases h with
  | portRead o z => cases hs; exact .inl ⟨_, rfl⟩
  | portWrite o z v => cases hs; exact .inr (.inl ⟨o, z, v, rfl, rfl⟩)
  | memRead a => exact .inr (.inr (.inl ⟨a, rfl, hs⟩))
  | memWrite a b => exact .inr (.inr (.inr ⟨a, b, rfl, hs⟩))

/-- Everything a step that answers a next state has done: the turn of one agent. -/
theorem step_next {s t : State} (h : step s = .next t) :
    (s.nextTurn = .engine ∧ engineTurn s.popTurn = .next t) ∨
      (∃ a, s.nextTurn = .host a ∧ hostStep a s.popTurn = .next t) ∨
      (s.nextTurn = .reset ∧ t = s.popTurn.doReset) := by
  unfold step takeTurn at h
  split at h
  · exact .inl ⟨‹_›, h⟩
  · exact .inr (.inl ⟨_, ‹_›, h⟩)
  · cases h
    exact .inr (.inr ⟨‹_›, rfl⟩)

/-- The next step after `issue` completes the issued command. -/
theorem step_issue {s : State} {w : Word} {i : Instr} (h : decode w = .ok i) :
    step (s.issue w) = exec i (s.accept w) := by
  rw [step_of_turn (u := .engine) (nextTurn_cons (s := s.issue w) rfl)]
  exact engineTurn_command (s := s.accept w) rfl h

/-- A step never answers that no command is in flight: the engine completes only while BUSY = 1 (40_command.md
rule R405). -/
theorem complete_of_latch_ne_idle {s : State} {l : Latch} (hl : s.latch = some l) (rule : Latch → CmdResult) :
    complete s rule ≠ .refused .noCommandInFlight := by
  unfold complete
  rw [hl]
  dsimp only
  split <;> simp

end Sys2Proof.Machine
end

