-- ==== Sys2Proof/Laws/Exec.lean ====
section
/-! SUPPORT. What `exec` can do, said once for all commands: its rule (40_command.md rule R411), the errors a rule can
raise (60_exceptions.md rules R901, R905), and the fields a commit can change (40_command.md rule R405). -/

namespace Sys2Proof.Machine

/-- The rule of each command (40_command.md rule R411). -/
def ruleOf (i : Instr) (s : State) : Latch → CmdResult :=
  match i with
  | .nop => nopRule s
  | .crcInit => crcInitRule s
  | .crcByte b => crcByteRule b s
  | .crcBuf => crcBufRule s
  | .typeCheck => typeCheckRule s
  | .frame => frameRule s
  | .deframe => deframeRule s
  | .seqStart => seqStartRule s
  | .seqNext => seqNextRule s
  | .outStart => outStartRule s
  | .sigEmit => sigEmitRule s

/-- Every meaning is the completion step of its rule. -/
theorem exec_eq_complete (i : Instr) (s : State) : exec i s = complete s (ruleOf i s) := by
  cases i <;> rfl

/-- Everything a command that answers a next state has done. -/
theorem exec_next {i : Instr} {s t : State} (h : exec i s = .next t) :
    ∃ l, s.latch = some l ∧
      ((∃ u, ruleOf i s l = .ok u ∧ t = u.succeed) ∨
        ∃ e, ruleOf i s l = .raise e ∧ t = s.recordError l.word e) := by
  rw [exec_eq_complete] at h
  exact complete_next h

theorem exec_ok {i : Instr} {s t : State} {l : Latch} (hl : s.latch = some l) (h : ruleOf i s l = .ok t) :
    exec i s = .next t.succeed := by
  rw [exec_eq_complete]
  exact complete_ok hl h

theorem exec_raise {i : Instr} {s : State} {l : Latch} {e : CmdError} (hl : s.latch = some l)
    (h : ruleOf i s l = .raise e) : exec i s = .next (s.recordError l.word e) := by
  rw [exec_eq_complete]
  exact complete_raise hl h

theorem exec_stop {i : Instr} {s : State} {l : Latch} {f : Fault} (hl : s.latch = some l)
    (h : ruleOf i s l = .stop f) : exec i s = .fault f := by
  rw [exec_eq_complete]
  exact complete_stop hl h

/-- The errors a rule can raise: never NONE, a sequence failure only from SEQ_START and SEQ_NEXT, IN_SEQ only from a
chunk decode of SEQ_NEXT, which fails the sequence (60_exceptions.md rule R905). -/
theorem ruleOf_raise {i : Instr} {s : State} {l : Latch} {e : CmdError} (h : ruleOf i s l = .raise e) :
    e.code ≠ .none ∧ (e.inSeq = true → i = .seqNext ∧ e.failsSeq = true) ∧
      (e.failsSeq = true → i = .seqStart ∨ (i = .seqNext ∧ e.inSeq = true)) := by
  cases i with
  | nop => cases h
  | crcInit => cases h
  | crcByte b => cases h
  | crcBuf => simp [crcBufRule_raise h, busErrorAt]
  | typeCheck => simp [typeCheckRule_raise h]
  | frame => simp [frameCheck_eq_some (frameRule_raise h)]
  | deframe => simp [deframeRule_raise h]
  | seqStart => simp [seqStartRule_raise h]
  | seqNext =>
    rcases seqNextRule_raise (l := l) h with ⟨-, rfl⟩ | ⟨-, -, c, hc, rfl, -⟩
    · simp
    · simp [chunkErrorAt, hc]
  | outStart => simp [outStartRule_raise h, busErrorAt]
  | sigEmit => simp [sigEmitRule_raise (l := l) h]

/-- The fields no commit changes. -/
theorem ruleOf_ok_keeps {i : Instr} {s t : State} {l : Latch} (h : ruleOf i s l = .ok t) :
    t.ctrl = s.ctrl ∧ t.done = s.done ∧ t.err = s.err ∧ t.reject = s.reject ∧ t.error = s.error ∧
      t.ops = { s.ops with crcState := t.ops.crcState } ∧ t.config = s.config ∧ t.agenda = s.agenda ∧
      t.observed = s.observed ∧ t.freeIx = s.freeIx := by
  cases i with
  | nop => cases h; simp
  | crcInit => cases h; simp
  | crcByte b => cases h; simp
  | crcBuf => simp [crcBufRule_ok h]
  | typeCheck => simp [typeCheckRule_ok h]
  | frame => simp [frameRule_ok h]
  | deframe =>
    obtain ⟨-, k, -, rfl⟩ := deframeRule_ok h
    simp
  | seqStart => simp [seqStartRule_ok h]
  | seqNext =>
    obtain ⟨-, ⟨-, rfl⟩ | ⟨-, -, k, -, rfl⟩⟩ := seqNextRule_ok (l := l) h <;> simp
  | outStart => simp [outStartRule_ok h]
  | sigEmit => simp [sigEmitRule_ok (l := l) h]

/-- CRC_STATE is committed by the CRC commands only (42_crc.md rule R606). -/
theorem ruleOf_ok_crcState {i : Instr} {s t : State} {l : Latch} (h : ruleOf i s l = .ok t)
    (hi : i ≠ .crcInit) (hb : ∀ b, i ≠ .crcByte b) (hu : i ≠ .crcBuf) : t.ops = s.ops := by
  cases i with
  | nop => cases h; rfl
  | crcInit => exact absurd rfl hi
  | crcByte b => exact absurd rfl (hb b)
  | crcBuf => exact absurd rfl hu
  | typeCheck => simp [typeCheckRule_ok h]
  | frame => simp [frameRule_ok h]
  | deframe =>
    obtain ⟨-, k, -, rfl⟩ := deframeRule_ok h
    simp
  | seqStart => simp [seqStartRule_ok h]
  | seqNext =>
    obtain ⟨-, ⟨-, rfl⟩ | ⟨-, -, k, -, rfl⟩⟩ := seqNextRule_ok (l := l) h <;> simp
  | outStart => simp [outStartRule_ok h]
  | sigEmit => simp [sigEmitRule_ok (l := l) h]

/-- The buffer memory after a commit: FRAME's and SIG_EMIT's is the bytes written at OUT_PTR, every other command's is
the memory before (20_memory.md rule R203). -/
theorem ruleOf_ok_mem {i : Instr} {s t : State} {l : Latch} (h : ruleOf i s l = .ok t) :
    (i ≠ .frame ∧ i ≠ .sigEmit ∧ t.mem = s.mem) ∨
      ∃ b : List Byte, outputWindow i l s = ⟨s.out.ptr.toNat, b.length⟩ ∧ b.length ≤ s.out.rem.toNat ∧
        0 < b.length ∧ t.mem = s.mem.writeBytes s.out.ptr.toNat b ∧
        t.out = ⟨s.out.ptr + toReg b.length, s.out.rem - toReg b.length, s.out.count + toReg b.length⟩ := by
  cases i with
  | nop => cases h; simp
  | crcInit => cases h; simp
  | crcByte b => cases h; simp
  | crcBuf => simp [crcBufRule_ok h]
  | typeCheck => simp [typeCheckRule_ok h]
  | frame =>
    obtain ⟨hc, -, rfl⟩ := frameRule_ok h
    obtain ⟨-, -, hn⟩ := frameCheck_eq_none.1 hc
    refine .inr ⟨_, ?_, ?_, ?_, rfl, rfl⟩
    · simp [outputWindow, OutCursor.window, frameSize]
    · simpa [frameSize] using hn
    · simp
  | deframe =>
    obtain ⟨-, k, -, rfl⟩ := deframeRule_ok h
    simp
  | seqStart => simp [seqStartRule_ok h]
  | seqNext =>
    obtain ⟨-, ⟨-, rfl⟩ | ⟨-, -, k, -, rfl⟩⟩ := seqNextRule_ok (l := l) h <;> simp
  | outStart => simp [outStartRule_ok h]
  | sigEmit =>
    obtain ⟨hn, rfl⟩ := sigEmitRule_ok (l := l) h
    exact .inr ⟨sig, rfl, hn, by decide, rfl, rfl⟩

end Sys2Proof.Machine
end

