-- ==== Sys2Proof/Laws/Codec.lean ====
section
/-! SUPPORT. The byte-order helpers are inverse to each other, the claims' data and CRC (Safety.lean) are the model's, and
what the chunk decoder answers in each case (00_scope.md rule R13; 43_chunk_codec.md rules R711 to R715). -/

namespace Sys2Proof.Machine

theorem be32_getLsbD (b0 b1 b2 b3 : Byte) (k : Nat) :
    (be32 b0 b1 b2 b3).getLsbD k =
      if k < 8 then b3.getLsbD k else if k - 8 < 8 then b2.getLsbD (k - 8)
      else if k - 8 - 8 < 8 then b1.getLsbD (k - 8 - 8) else b0.getLsbD (k - 8 - 8 - 8) := by
  change (b0 ++ b1 ++ b2 ++ b3 : BitVec (8 + 8 + 8 + 8)).getLsbD k = _
  simp only [BitVec.getLsbD_append]

/-- `bytes_be32` of `be32` (00_scope.md rule R13). -/
theorem bytesBe32_be32 (b0 b1 b2 b3 : Byte) : bytesBe32 (be32 b0 b1 b2 b3) = [b0, b1, b2, b3] := by
  simp only [bytesBe32, List.cons.injEq, and_true]
  refine ⟨?_, ?_, ?_, ?_⟩ <;>
  · apply BitVec.eq_of_getLsbD_eq
    intro k hk
    interval_cases k <;>
      simp only [wireByte, be32_getLsbD, BitVec.getLsbD_extractLsb', Nat.reduceAdd, Nat.reduceSub,
        Nat.reduceMul, Nat.reduceLT, decide_true, Bool.true_and, if_true, if_false]

/-- `be32` of `bytes_be32` (00_scope.md rule R13). -/
theorem be32_wireBytes (w : Word) : be32 (wireByte w 0) (wireByte w 1) (wireByte w 2) (wireByte w 3) = w := by
  apply BitVec.eq_of_getLsbD_eq
  intro k hk
  interval_cases k <;>
    simp only [wireByte, be32_getLsbD, BitVec.getLsbD_extractLsb', Nat.reduceAdd, Nat.reduceSub,
      Nat.reduceMul, Nat.reduceLT, decide_true, Bool.true_and, if_true, if_false]

@[simp] theorem toReg_toNat (w : Word) : toReg w.toNat = w := by simp [toReg]

/-- The claims' data bytes are the model's `MemRead`. -/
theorem dataAt_eq (m : Memory) (a n : Nat) : dataAt m a n = m.readBytes a n := by
  apply List.ext_getElem (by simp [dataAt])
  intro k h1 h2
  rw [Memory.readBytes_getElem]
  simp [dataAt]

@[simp] theorem dataAt_length (m : Memory) (a n : Nat) : (dataAt m a n).length = n := by simp [dataAt]

/-- The claims' chunk CRC is the model's. -/
theorem crcOf_eq (t : Word) (d : List Byte) : crcOf t d = codecCrc t d := rfl

/-- The register after a sequence, as a left fold (42_crc.md rule R603). -/
theorem fold_eq_foldl (c : Word) (s : List Byte) : fold c s = s.foldl upd c := by
  induction s generalizing c with
  | nil => rfl
  | cons b s ih => exact ih _

/-- The four bytes of a big-endian field give the field (20_memory.md rule R208). -/
theorem readBe32_of_dataAt {m : Memory} {a : Nat} {w : Word} (h : dataAt m a 4 = bytesBe32 w) : m.readBe32 a = w := by
  rw [dataAt_eq] at h
  simp only [Memory.readBytes, bytesBe32, List.cons.injEq, and_true] at h
  obtain ⟨h0, h1, h2, h3⟩ := h
  rw [Memory.readBe32, h0, h1, h2, h3, be32_wireBytes]

/-- A big-endian field's bytes (20_memory.md rule R208). -/
theorem bytesBe32_readBe32 (m : Memory) (a : Nat) : bytesBe32 (m.readBe32 a) = dataAt m a 4 := by
  rw [Memory.readBe32, bytesBe32_be32, dataAt_eq]
  rfl

/-- The data bytes depend only on their window. -/
theorem dataAt_congr {m m' : Memory} {a n : Nat} (h : ∀ k, k < n → m'.read (a + k) = m.read (a + k)) :
    dataAt m' a n = dataAt m a n := by
  rw [dataAt_eq, dataAt_eq]
  exact Memory.readBytes_congr h

theorem dataAt_append (m : Memory) (a n k : Nat) : dataAt m a (n + k) = dataAt m a n ++ dataAt m (a + n) k := by
  simp [dataAt, List.range_add, Nat.add_assoc, Function.comp_def]

/-- The middle of a written sequence reads as written. -/
theorem dataAt_writeBytes (m : Memory) (a : Nat) (p q r : List Byte) :
    dataAt (m.writeBytes a (p ++ q ++ r)) (a + p.length) q.length = q := by
  rw [dataAt_eq]
  apply List.ext_getElem (by simp)
  intro k h1 h2
  rw [Memory.readBytes_getElem, Nat.add_assoc, Memory.read_writeBytes_inside _ _ _ _ (by simp; omega),
    List.getElem_append_left (by simp; omega), List.getElem_append_right (by omega)]
  simp

/-- The output cursor after a commit of bytes that fit, on naturals (43_chunk_codec.md rule R702). -/
theorem emit_out_toNat {s : State} {b : List Byte} (h : b.length ≤ s.out.rem.toNat) :
    (s.emit b).out = ⟨BitVec.ofNat 32 (s.out.ptr.toNat + b.length), BitVec.ofNat 32 (s.out.rem.toNat - b.length),
      BitVec.ofNat 32 (s.out.count.toNat + b.length)⟩ := by
  have := s.out.rem.isLt
  rw [State.emit_out]
  congr 1 <;> apply BitVec.eq_of_toNat_eq
  · simp [toReg]
  · rw [toReg, BitVec.toNat_sub, BitVec.toNat_ofNat, BitVec.toNat_ofNat]
    omega
  · simp [toReg]

/-- `inRange` of a window given by two registers (20_memory.md rule R205). -/
theorem inRange_words {c : Config} {a n : Word} (h : n = 0 ∨ a.toNat + n.toNat ≤ c.memSize) :
    inRange c ⟨a.toNat, n.toNat⟩ = true := by
  rw [inRange_iff]
  rcases h with rfl | h
  · simp
  · exact .inr h

theorem not_inRange_words {c : Config} {a n : Word} (h0 : n ≠ 0) (h : c.memSize < a.toNat + n.toNat) :
    inRange c ⟨a.toNat, n.toNat⟩ = false := by
  rw [Bool.eq_false_iff, Ne, inRange_iff]
  have : n.toNat ≠ 0 := fun h' => h0 (BitVec.eq_of_toNat_eq h')
  simp only
  omega

/-- The signature check of SEQ_START (44_sequencer.md rules R801, R802). -/
theorem signatureOk_iff (m : Memory) (w : Window) :
    signatureOk m w = true ↔ 8 ≤ w.len ∧ dataAt m w.base 8 = sig := by
  rw [dataAt_eq]
  unfold signatureOk
  split_ifs with h
  · simp only [false_iff, not_and]
    omega
  · simp only [beq_iff_eq]
    exact ⟨fun h' => ⟨by omega, h'⟩, fun h' => h'.2⟩

/-- A complete chunk decodes (43_chunk_codec.md rule R711). -/
theorem decodeChunk_good {m : Memory} {a r : Nat} (h : goodChunkAt m a r) :
    decodeChunk m a r = .ok ⟨m.readBe32 a, m.readBe32 (a + 4), a + 8, m.readBe32 (a + 8 + (m.readBe32 a).toNat),
      m.readBe32 (a + 8 + (m.readBe32 a).toNat), a + 12 + (m.readBe32 a).toNat,
      r - (12 + (m.readBe32 a).toNat)⟩ := by
  obtain ⟨h1, h2, h3⟩ := h
  rw [dataAt_eq, crcOf_eq] at h3
  simp only [decodeChunk]
  rw [if_neg (by omega), if_neg (by omega), if_neg (by simp [h2]), if_neg (by simp [h3]), h3]

/-- Too few bytes (43_chunk_codec.md rules R713, R714). -/
theorem decodeChunk_eof {m : Memory} {a r : Nat} (h : r < 4 ∨ r < 12 + (m.readBe32 a).toNat) :
    decodeChunk m a r = .error .unexpectedEof := by
  simp only [decodeChunk]
  split_ifs <;> first | rfl | omega

/-- A complete chunk with a type byte that is no letter (43_chunk_codec.md rule R712). -/
theorem decodeChunk_badType {m : Memory} {a r : Nat} (h : 12 + (m.readBe32 a).toNat ≤ r)
    (ht : letters4 (m.readBe32 (a + 4)) = false) : decodeChunk m a r = .error .invalidChunkType := by
  simp only [decodeChunk]
  rw [if_neg (by omega), if_neg (by omega), if_pos (by simp [ht])]

/-- A complete chunk of letter type whose CRC does not match (43_chunk_codec.md rule R712). -/
theorem decodeChunk_badCrc {m : Memory} {a r : Nat} (h : 12 + (m.readBe32 a).toNat ≤ r)
    (ht : letters4 (m.readBe32 (a + 4)) = true)
    (hc : crcOf (m.readBe32 (a + 4)) (dataAt m (a + 8) (m.readBe32 a).toNat) ≠
      m.readBe32 (a + 8 + (m.readBe32 a).toNat)) :
    decodeChunk m a r = .error .crcMismatch := by
  rw [dataAt_eq, crcOf_eq] at hc
  simp only [decodeChunk]
  rw [if_neg (by omega), if_neg (by omega), if_neg (by simp [ht]), if_pos hc]

end Sys2Proof.Machine
end

