-- ==== Sys2Proof/Laws/Encoding.lean ====
section
/-! SUPPORT. The fields of an encoded command (30_encoding.md rules R301, R302), and what the decoder has checked. -/

namespace Sys2Proof

@[simp] theorem encode_opc (i : Instr) : Word.opc (encode i) = i.opcode := by
  cases i
  case crcByte b =>
    apply BitVec.eq_of_getLsbD_eq
    intro k hk
    simp only [Word.opc, encode, BitVec.getLsbD_extractLsb', BitVec.getLsbD_append]
    simp [hk, show ¬ 24 + k < 8 by omega, show ¬ 24 + k - 8 < 16 by omega, show 24 + k - 8 - 16 = k by omega]
  all_goals decide

@[simp] theorem encode_rsv (i : Instr) : Word.rsv (encode i) = 0 := by
  cases i
  case crcByte b =>
    apply BitVec.eq_of_getLsbD_eq
    intro k hk
    simp only [Word.rsv, encode, BitVec.getLsbD_extractLsb', BitVec.getLsbD_append]
    simp [hk, show ¬ 8 + k < 8 by omega]
  all_goals decide

@[simp] theorem encode_imm8 (i : Instr) : Word.imm8 (encode i) = i.immediate := by
  cases i
  case crcByte b =>
    apply BitVec.eq_of_getLsbD_eq
    intro k hk
    simp only [Word.imm8, encode, BitVec.getLsbD_extractLsb', BitVec.getLsbD_append]
    simp [hk]
  all_goals decide

/-- A word is its three fields (30_encoding.md rule R301). -/
theorem Word.eq_fields (w : Word) : Word.opc w ++ Word.rsv w ++ Word.imm8 w = w := by
  apply BitVec.eq_of_getLsbD_eq
  intro k hk
  simp only [Word.opc, Word.rsv, Word.imm8, BitVec.getLsbD_append, BitVec.getLsbD_extractLsb']
  by_cases h1 : k < 8
  · simp [h1]
  · by_cases h2 : k - 8 < 16
    · simp [h1, h2, show 8 + (k - 8) = k by omega]
    · simp [h1, h2, show k - 8 - 16 < 8 by omega, show 24 + (k - 8 - 16) = k by omega]

/-- The command an opcode selects has that opcode and, where it has one, that immediate. -/
theorem commandOf_some {o : BitVec 8} {b : Byte} {i : Instr} (h : commandOf o b = some i) :
    i.opcode = o ∧ (i.immediate = if o = 0x02 then b else 0) := by
  unfold commandOf at h
  split at h <;> cases h <;> exact ⟨rfl, rfl⟩

/-- The opcode map names a command exactly for the assigned opcodes (30_encoding.md rule R304). -/
theorem commandOf_isSome (o : BitVec 8) (b : Byte) : (commandOf o b).isSome = assignedOpcodes.contains o := by
  unfold commandOf
  split
  all_goals first
    | rfl
    | (simp only [Option.isSome_none, assignedOpcodes]
       symm
       rw [Bool.eq_false_iff]
       simp_all)

/-- What the decoder has checked of a word it accepts (30_encoding.md rule R306). -/
theorem decode_ok {w : Word} {i : Instr} (h : decode w = .ok i) :
    commandOf (Word.opc w) (Word.imm8 w) = some i ∧ Word.rsv w = 0 ∧ (Word.opc w = 0x02 ∨ Word.imm8 w = 0) := by
  unfold decode at h
  dsimp only at h
  split at h
  · cases h
  · split_ifs at h with h1 h2
    cases h
    exact ⟨‹_›, not_not.1 h1, Decidable.or_iff_not_imp_left.2 fun h => not_not.1 fun hi => h2 ⟨h, hi⟩⟩

/-- A decoded command's opcode is the word's OPC field. -/
theorem decode_opcode {w : Word} {i : Instr} (h : decode w = .ok i) : i.opcode = w.extractLsb' 24 8 :=
  (commandOf_some (decode_ok h).1).1

end Sys2Proof
end

