-- ==== Sys2Proof/Machine/HostRun.lean ====
section
/-! DEFINITION. A host that acts on what it reads: the loop of `DECODE_FILE` (30_encoding.md rule R313) and the outcomes
of whole-file decode (44_sequencer.md rule R816). The run holds the host's turns and the engine's, and no reset. -/

namespace Sys2Proof.Machine

/-- The state with a turn put first on its agenda. -/
def State.schedule (s : State) (t : Turn) : State := { s with agenda := t :: s.agenda }

/-- One run after another; a stop of the first is a stop of both. -/
def andThen {σ τ : Type} (o : Host.Outcome σ Fault Refusal) (f : σ → Host.Outcome τ Fault Refusal) :
    Host.Outcome τ Fault Refusal :=
  match o with
  | .next s => f s
  | .fault e => .fault e
  | .refused e => .refused e

/-- The steps of a list of turns (00_scope.md rule R7). -/
def runTurns : List Turn → State → Host.Outcome State Fault Refusal
  | [], s => .next s
  | t :: ts, s => andThen (step (s.schedule t)) (runTurns ts)

/-- What whole-file decode gives (44_sequencer.md rule R816). -/
inductive FileOutcome where
  /-- (a) `Ok(PngFile)`: the decode results in stream order, chunk j the j-th. -/
  | ok (chunks : List DecodeResult)
  /-- (b) `Err(InvalidSignature)`. -/
  | invalidSignature
  /-- (c) `Err(Chunk(j, e))`; the chunks collected before it are discarded. -/
  | chunkError (index : Word) (code : ErrCode)
  /-- None of the rule's three (log entry 20): another error, as BUS_ERROR of SEQ_START (rule R801); code NONE is a loop
  not ended, which no run begun with BUSY = 0 gives. -/
  | other (code : ErrCode)
  deriving DecidableEq, Repr

/-- The host has seen the loop end: STATUS.ERR = 1 or STATUS.EOS = 1 (30_encoding.md rule R313). -/
def State.loopEnds (s : State) : Bool := s.err || s.eos

/-- The outcome, from the registers at the end of the loop and the decode results collected (44_sequencer.md rule
R816). -/
def fileOutcome (chunks : List DecodeResult) (s : State) : FileOutcome :=
  if s.err then
    if s.error.inSeq then .chunkError s.error.idx s.error.code
    else if s.error.code = .invalidSignature then .invalidSignature
    else .other s.error.code
  else if s.eos then .ok chunks
  else .other .none

/-- The loop of `DECODE_FILE` (30_encoding.md rule R313): while ERR = 0 and EOS = 0, `DO SEQ_NEXT`, and the reads of the
decode-result registers after each success. The end report is a success that decodes no chunk, so it adds none (rule
R812). `fuel` bounds the rounds. -/
def decodeLoop (busyReads : Nat → Nat) :
    Nat → List DecodeResult → State → Host.Outcome (State × List DecodeResult) Fault Refusal
  | 0, chunks, s => .next (s, chunks)
  | fuel + 1, chunks, s =>
    if s.loopEnds then .next (s, chunks)
    else
      andThen (runTurns (doCommand .seqNext (busyReads (chunks.length + 1))) s) fun t =>
        if t.err then .next (t, chunks)
        else
          andThen (runTurns readResults t) fun u =>
            decodeLoop busyReads fuel (if u.eos then chunks else chunks ++ [u.dec]) u

/-- `DECODE_FILE a, n` with its outcome (30_encoding.md rule R313, 44_sequencer.md rule R816). A chunk takes 12 bytes at
least, so n + 1 rounds always end the loop. -/
def decodeFile (a n : Word) (busyReads : Nat → Nat) (s : State) :
    Host.Outcome (State × FileOutcome) Fault Refusal :=
  andThen (runTurns (setSrc a n ++ doCommand .seqStart (busyReads 0)) s) fun t =>
    andThen (decodeLoop busyReads (n.toNat + 1) [] t) fun r => .next (r.1, fileOutcome r.2 r.1)

end Sys2Proof.Machine
end

