-- ==== Sys2Proof/Laws/HostRun.lean ====
section
/-! SUPPORT. Whole-file decode by the host's loop gives the outcome that decoding the bytes gives (44_sequencer.md rule
R816), for every number of busy reads. -/

namespace Sys2Proof.Machine

/-! ### Runs -/

@[simp] theorem andThen_next {σ τ : Type} (s : σ) (f : σ → Host.Outcome τ Fault Refusal) :
    andThen (.next s) f = f s := rfl

/-- A step with a turn put first is that turn. -/
theorem step_schedule (s : State) (t : Turn) : step (s.schedule t) = takeTurn t s := rfl

theorem runTurns_append (p q : List Turn) (s : State) :
    runTurns (p ++ q) s = andThen (runTurns p s) (runTurns q) := by
  induction p generalizing s with
  | nil => rfl
  | cons t p ih =>
    simp only [List.cons_append, runTurns]
    cases step (s.schedule t) with
    | next u => exact ih u
    | fault e => rfl
    | refused e => rfl

/-- Two states that differ in the host's record only. -/
abbrev SameMachine (s t : State) : Prop := t = { s with observed := t.observed }

/-- A register write is its port write. -/
theorem runTurns_wr (r : Reg) (v : Word) (s : State) :
    runTurns (wr r v) s = .next (s.portWrite (offsetOf r) .word v) := rfl

/-- `SETSRC` stores both registers (30_encoding.md rule R313). -/
theorem runTurns_setSrc (a n : Word) (s : State) :
    runTurns (setSrc a n) s = .next { s with ops := { s.ops with srcAddr := a, srcLen := n } } := by
  rw [setSrc, runTurns_append, runTurns_wr, andThen_next, runTurns_wr]
  rfl

/-- A register read changes the record only. -/
theorem runTurns_rd (r : Reg) (s : State) : ∃ t, runTurns (rd r) s = .next t ∧ SameMachine s t :=
  ⟨_, rfl, rfl⟩

theorem SameMachine.trans {s t u : State} (h : SameMachine s t) (h' : SameMachine t u) : SameMachine s u := by
  unfold SameMachine at *
  rw [h', h]

/-- Busy reads change the record only. -/
theorem runTurns_busyReads (n : Nat) (s : State) :
    ∃ t, runTurns (List.replicate n (rd .status)).flatten s = .next t ∧ SameMachine s t := by
  induction n generalizing s with
  | zero => exact ⟨s, rfl, rfl⟩
  | succ n ih =>
    obtain ⟨t, ht, hst⟩ := runTurns_rd .status s
    obtain ⟨u, hu, htu⟩ := ih t
    refine ⟨u, ?_, hst.trans htu⟩
    rw [List.replicate_succ, List.flatten_cons, runTurns_append, ht]
    exact hu

/-- The reads of the decode-result registers change the record only. -/
theorem runTurns_readResults (s : State) : ∃ t, runTurns readResults s = .next t ∧ SameMachine s t := by
  obtain ⟨t, ht, hst⟩ := runTurns_rd .decLen s
  obtain ⟨u, hu, htu⟩ := runTurns_rd .decType t
  obtain ⟨v, hv, huv⟩ := runTurns_rd .decDataAddr u
  obtain ⟨w, hw, hvw⟩ := runTurns_rd .decStoredCrc v
  refine ⟨w, ?_, ((hst.trans htu).trans huv).trans hvw⟩
  simp only [readResults, runTurns_append, ht, hu, hv, hw, andThen_next]

/-- `DO` from BUSY = 0: the accepted command is completed, and STATUS is read (30_encoding.md rule R313). -/
theorem runTurns_doCommand {i : Instr} (hd : decode (encode i) = .ok i) {s : State} (hs : s.latch = none) (n : Nat) :
    ∃ u, SameMachine (s.accept (encode i)) u ∧
      ∀ t, exec i u = .next t → ∃ v, runTurns (doCommand i n) s = .next v ∧ SameMachine t v := by
  obtain ⟨u, hu, hau⟩ := runTurns_busyReads n (s.accept (encode i))
  refine ⟨u, hau, fun t ht => ?_⟩
  have hw : runTurns (wr .cmd (encode i)) s = .next (s.accept (encode i)) := by
    have : s.portWrite 0x10 .word (encode i) = s.accept (encode i) := by
      show s.writeCmd (encode i) = _
      simp [State.writeCmd, State.busy, hs]
    rw [runTurns_wr, ← this]
    rfl
  have hl : u.latch = some ⟨encode i, s.ops⟩ := congrArg State.latch hau
  obtain ⟨v, hv, htv⟩ := runTurns_rd .status t
  refine ⟨v, ?_, htv⟩
  rw [doCommand, poll, runTurns_append, hw, andThen_next, runTurns_append, hu, andThen_next]
  simp only [runTurns, step_schedule, takeTurn]
  rw [engineTurn_command hl hd, ht]
  exact hv

/-! ### What decoding the bytes gives -/

/-- The outcome of decoding the chunks from `a`, within `r` bytes, after those collected (44_sequencer.md rule R816), on
naturals and without the engine. -/
def decodeAll (m : Memory) : Nat → List DecodeResult → Nat → Nat → FileOutcome
  | 0, _, _, _ => .other .none
  | fuel + 1, chunks, a, r =>
    if r = 0 then .ok chunks
    else
      match decodeChunk m a r with
      | .error e => .chunkError (BitVec.ofNat 32 chunks.length) e
      | .ok k => decodeAll m fuel (chunks ++ [⟨k.len, k.chunkType, toReg k.dataAddr, k.storedCrc⟩]) k.next k.rem

/-- The outcome of decoding the `n` bytes at `a` (44_sequencer.md rules R801, R816). -/
def decodeBytes (c : Config) (m : Memory) (a n : Nat) : FileOutcome :=
  if !inRange c ⟨a, n⟩ then .other .busError
  else if !signatureOk m ⟨a, n⟩ then .invalidSignature
  else decodeAll m (n + 1) [] (a + 8) (n - 8)

/-- Decoding always ends: a chunk takes 12 bytes at least. -/
theorem decodeAll_ends (m : Memory) {fuel r : Nat} (h : r < fuel) (chunks : List DecodeResult) (a : Nat) :
    ∀ c, decodeAll m fuel chunks a r ≠ .other c := by
  induction fuel generalizing chunks a r with
  | zero => omega
  | succ fuel ih =>
    intro c
    unfold decodeAll
    split
    · simp
    · split
      · simp
      · rename_i k hk
        obtain ⟨h1, -, -, rfl⟩ := decodeChunk_ok hk
        exact ih (by simp only; omega) _ _ c

theorem memSize_le (c : Config) : c.memSize ≤ 2 ^ 32 := by
  have := c.memTop.isLt
  simp only [Config.memSize]
  omega

/-- An ended loop takes no further turn. -/
theorem decodeLoop_ended (busyReads : Nat → Nat) (fuel : Nat) (chunks : List DecodeResult) {s : State}
    (h : s.loopEnds = true) : decodeLoop busyReads fuel chunks s = .next (s, chunks) := by
  cases fuel <;> simp [decodeLoop, h]

/-- The host's loop gives what decoding the bytes at the cursor gives. -/
theorem decodeLoop_eq (busyReads : Nat → Nat) (fuel : Nat) (chunks : List DecodeResult) (s : State) (a : Nat)
    (hl : s.latch = none) (he : s.err = false) (hq : s.seq = .stream)
    (hc : s.cur.rem = 0 ∨ (a = s.cur.addr.toNat ∧ a + s.cur.rem.toNat ≤ s.config.memSize))
    (hi : s.chunkIdx = BitVec.ofNat 32 chunks.length) :
    ∃ t chunks', decodeLoop busyReads fuel chunks s = .next (t, chunks') ∧
      fileOutcome chunks' t = decodeAll s.mem fuel chunks a s.cur.rem.toNat := by
  induction fuel generalizing chunks s a with
  | zero => exact ⟨s, chunks, rfl, by simp [fileOutcome, decodeAll, State.eos, he, hq]⟩
  | succ fuel ih =>
    obtain ⟨u, hu, hdo⟩ :=
      runTurns_doCommand (i := .seqNext) (by decide) hl (busyReads (chunks.length + 1))
    have hul : u.latch = some ⟨encode .seqNext, s.ops⟩ := congrArg State.latch hu
    have huq : u.seq = .stream := (congrArg State.seq hu).trans hq
    have huc : u.cur = s.cur := (congrArg State.cur hu).trans rfl
    have hum : u.mem = s.mem := (congrArg State.mem hu).trans rfl
    have hue : u.err = false := congrArg State.err hu
    have hui : u.chunkIdx = s.chunkIdx := (congrArg State.chunkIdx hu).trans rfl
    have huf : u.config = s.config := (congrArg State.config hu).trans rfl
    have hm := memSize_le s.config
    have hstart : s.loopEnds = false := by simp [State.loopEnds, State.eos, he, hq]
    unfold decodeLoop decodeAll
    simp only [hstart, Bool.false_eq_true, if_false]
    by_cases h0 : s.cur.rem = 0
    · obtain ⟨v, hv, htv⟩ := hdo _ (exec_ok (i := .seqNext) (t := { u with seq := .ended }) hul
        (seqNextRule_end ⟨encode .seqNext, s.ops⟩ (by rw [huq]; rfl) (by rw [huc]; exact h0)))
      obtain ⟨w, hw, hvw⟩ := runTurns_readResults v
      have h1 : v.err = false := (congrArg State.err htv).trans hue
      have h2 : w.err = false := (congrArg State.err hvw).trans h1
      have h3 : w.eos = true := by simp [State.eos, (congrArg State.seq (htv.trans hvw) : w.seq = .ended)]
      refine ⟨w, chunks, ?_, by simp [fileOutcome, h2, h3, h0]⟩
      rw [hv, andThen_next, h1, if_neg (by simp), hw, andThen_next, if_pos h3]
      exact decodeLoop_ended _ _ _ (by simp [State.loopEnds, h3])
    · have h0' : s.cur.rem.toNat ≠ 0 := fun h => h0 (BitVec.eq_of_toNat_eq h)
      obtain ⟨rfl, hr⟩ := hc.resolve_left h0
      have hin : inRange u.config u.cur.window = true := by
        rw [huf, huc]
        exact inRange_words (.inr hr)
      have hdec := seqNextRule_decode (s := u) ⟨encode .seqNext, s.ops⟩ (by rw [huq]; rfl) (by rwa [huc]) hin
      rw [hum, huc] at hdec
      rw [if_neg h0']
      cases hk : decodeChunk s.mem s.cur.addr.toNat s.cur.rem.toNat with
      | error c =>
        obtain ⟨v, hv, htv⟩ := hdo _ (exec_raise (i := .seqNext) (e := chunkErrorAt c u) hul
          (by rw [hk] at hdec; exact hdec))
        have h1 : v.err = true := congrArg State.err htv
        have h2 : v.error.inSeq = true := congrArg (fun x => x.error.inSeq) htv
        have h3 : v.error.idx = u.chunkIdx := congrArg (fun x => x.error.idx) htv
        have h4 : v.error.code = c := congrArg (fun x => x.error.code) htv
        refine ⟨v, chunks, by rw [hv]; simp [h1], ?_⟩
        simp [fileOutcome, h1, h2, h3, h4, hui, hi]
      | ok k =>
        obtain ⟨v, hv, htv⟩ := hdo _ (exec_ok (i := .seqNext)
          (t := { u.commitChunk k with chunkIdx := u.chunkIdx + 1, seq := .stream }) hul
          (by rw [hk] at hdec; exact hdec))
        have hve : v.err = false := (congrArg State.err htv).trans hue
        obtain ⟨w, hw, hvw⟩ := runTurns_readResults v
        have htw := htv.trans hvw
        have hwq : w.seq = .stream := congrArg State.seq htw
        have hweos : w.eos = false := by simp [State.eos, hwq]
        have hd : w.dec = ⟨k.len, k.chunkType, toReg k.dataAddr, k.storedCrc⟩ := congrArg State.dec htw
        have hcur : w.cur = ⟨toReg k.next, toReg k.rem⟩ := congrArg State.cur htw
        have hwm : w.mem = s.mem := (congrArg State.mem htw).trans hum
        have hwf : w.config = s.config := (congrArg State.config htw).trans huf
        obtain ⟨hlen, -, -, hkeq⟩ := decodeChunk_ok hk
        have hrem : k.rem = s.cur.rem.toNat - (12 + (s.mem.readBe32 s.cur.addr.toNat).toNat) := by rw [hkeq]
        have hnext : k.next = s.cur.addr.toNat + 12 + (s.mem.readBe32 s.cur.addr.toNat).toNat := by rw [hkeq]
        have hlt := s.cur.rem.isLt
        have hremw : w.cur.rem.toNat = k.rem := by
          rw [hcur]
          simp only [toReg, BitVec.toNat_ofNat]
          omega
        have hcw : w.cur.rem = 0 ∨ (k.next = w.cur.addr.toNat ∧ k.next + w.cur.rem.toNat ≤ w.config.memSize) := by
          by_cases hz : k.rem = 0
          · exact .inl (by rw [hcur]; simp [toReg, hz])
          · right
            rw [hremw, hwf, hcur]
            simp only [toReg, BitVec.toNat_ofNat]
            omega
        have hiw : w.chunkIdx = BitVec.ofNat 32 (chunks ++ [w.dec]).length := by
          rw [(congrArg State.chunkIdx htw : w.chunkIdx = u.chunkIdx + 1), hui, hi]
          apply BitVec.eq_of_toNat_eq
          simp
        obtain ⟨t, chunks', ht, hout⟩ := ih (chunks ++ [w.dec]) w k.next
          (congrArg State.latch htw) ((congrArg State.err htw).trans hue) hwq hcw hiw
        refine ⟨t, chunks', ?_, ?_⟩
        · rw [hv]
          simp [hve, hw, hweos, ht]
        · rw [hout, hwm, hremw, hd]

/-- `DECODE_FILE` from BUSY = 0 always ends, with the outcome of decoding the bytes: all the chunks in stream order,
INVALID_SIGNATURE, the first failing chunk's index and error, or BUS_ERROR for a window out of range (44_sequencer.md
rules R801, R816). -/
theorem decodeFile_eq (a n : Word) (busyReads : Nat → Nat) (s : State) (hs : s.latch = none) :
    ∃ t, decodeFile a n busyReads s = .next (t, decodeBytes s.config s.mem a.toNat n.toNat) := by
  have hset := runTurns_setSrc a n s
  generalize hs' : { s with ops := { s.ops with srcAddr := a, srcLen := n } } = s' at hset
  obtain ⟨u, hu, hdo⟩ := runTurns_doCommand (i := .seqStart) (s := s') (by decide)
    (by rw [← hs']; exact hs) (busyReads 0)
  have hul : u.latch = some ⟨encode .seqStart, s'.ops⟩ := congrArg State.latch hu
  have hsrc : s'.ops.source = ⟨a.toNat, n.toNat⟩ := by rw [← hs']; rfl
  have hum : u.mem = s.mem := (congrArg State.mem hu).trans (by rw [← hs']; rfl)
  have huf : u.config = s.config := (congrArg State.config hu).trans (by rw [← hs']; rfl)
  have hue : u.err = false := congrArg State.err hu
  have hn := n.isLt
  have hm := memSize_le s.config
  unfold decodeFile decodeBytes
  rw [runTurns_append, hset, andThen_next]
  -- a failed SEQ_START ends the loop at once
  have failed : ∀ e : CmdError, seqStartRule u ⟨encode .seqStart, s'.ops⟩ = .raise e → e.inSeq = false →
      ∃ t, andThen (runTurns (doCommand .seqStart (busyReads 0)) s') (fun t =>
        andThen (decodeLoop busyReads (n.toNat + 1) [] t) fun r => .next (r.1, fileOutcome r.2 r.1)) =
          .next (t, if e.code = .invalidSignature then .invalidSignature else .other e.code) := by
    intro e he hsq
    obtain ⟨v, hv, htv⟩ := hdo _ (exec_raise (i := .seqStart) hul he)
    have h1 : v.err = true := congrArg State.err htv
    have h2 : v.error.inSeq = false := (congrArg (fun x => x.error.inSeq) htv).trans hsq
    have h3 : v.error.code = e.code := congrArg (fun x => x.error.code) htv
    refine ⟨v, ?_⟩
    rw [hv]
    simp [decodeLoop, State.loopEnds, h1, fileOutcome, h2, h3]
  by_cases h1 : inRange s.config ⟨a.toNat, n.toNat⟩ = true
  · by_cases h2 : signatureOk s.mem ⟨a.toNat, n.toNat⟩ = true
    · obtain ⟨v, hv, htv⟩ := hdo _ (exec_ok (i := .seqStart)
        (t := { u with
          cur := ⟨toReg (s'.ops.srcAddr.toNat + 8), toReg (s'.ops.srcLen.toNat - 8)⟩, chunkIdx := 0, seq := .stream })
        hul (by simp [ruleOf, seqStartRule, hsrc, huf, hum, h1, h2]))
      have hops : s'.ops.srcAddr = a ∧ s'.ops.srcLen = n := by rw [← hs']; exact ⟨rfl, rfl⟩
      have hcur : v.cur = ⟨toReg (a.toNat + 8), toReg (n.toNat - 8)⟩ := by
        rw [← hops.1, ← hops.2]
        exact congrArg State.cur htv
      obtain ⟨h8, -⟩ := (signatureOk_iff _ _).1 h2
      have hr := (inRange_iff _ _).1 h1
      simp only at h8 hr
      have hrem : v.cur.rem.toNat = n.toNat - 8 := by
        rw [hcur]
        simp only [toReg, BitVec.toNat_ofNat]
        omega
      obtain ⟨t, chunks, ht, hout⟩ := decodeLoop_eq busyReads (n.toNat + 1) [] v (a.toNat + 8)
        (congrArg State.latch htv) ((congrArg State.err htv).trans hue) (congrArg State.seq htv) (by
          have hvf : v.config = s.config := (congrArg State.config htv).trans huf
          rw [hrem, hvf, hcur]
          by_cases hz : n.toNat = 8
          · exact .inl (by simp [hz, toReg])
          · right
            simp only [toReg, BitVec.toNat_ofNat]
            omega) (congrArg State.chunkIdx htv)
      have hvm : v.mem = s.mem := (congrArg State.mem htv).trans hum
      refine ⟨t, ?_⟩
      rw [hv]
      simp only [andThen_next, ht, hout, hvm, hrem, h1, h2]
      rfl
    · obtain ⟨t, ht⟩ := failed { code := .invalidSignature, addr := s'.ops.srcAddr, failsSeq := true }
        (by simp [seqStartRule, hsrc, huf, hum, h1, h2]) rfl
      exact ⟨t, by rw [ht]; simp [h1, h2]⟩
  · obtain ⟨t, ht⟩ := failed { busErrorAt s'.ops.srcAddr with failsSeq := true }
      (by simp [seqStartRule, hsrc, huf, h1]) rfl
    exact ⟨t, by rw [ht]; simp [h1, busErrorAt]⟩

end Sys2Proof.Machine
end

