-- ==== Sys2Proof/Laws/PerInstr.lean ====
section
/-! SUPPORT. Per-instruction statements about a command as syntax: the fields of its word (30_encoding.md rules R301,
R302, R304). -/

namespace Sys2Proof.Laws.WordFields

/-- The encoded word is a command's: it passes the three checks of 30_encoding.md rule R307, and selects exactly one
row of the opcode map (rule R304). -/
def Statement (i : Instr) : Prop :=
  Word.wellFormed (encode i) = true ∧ (opcodeTable.filter fun r => r.selects (encode i)).length = 1

theorem nop : Statement .nop := by unfold Statement; decide

theorem crcInit : Statement .crcInit := by unfold Statement; decide

theorem crcByte (imm8 : Byte) : Statement (.crcByte imm8) := by
  have hw : Word.wellFormed (encode (.crcByte imm8)) = true := by
    simp [Word.wellFormed, Word.opcodeAssigned, Word.reservedClear, Word.immediateAllowed, Instr.opcode]
    decide
  refine ⟨hw, ?_⟩
  have hm : encode (.crcByte imm8) &&& 0xFFFFFF00 = 0x02000000 := by
    apply BitVec.eq_of_getLsbD_eq
    intro k hk
    rw [BitVec.getLsbD_and, encode, BitVec.getLsbD_append]
    by_cases h : k < 8
    · interval_cases k <;> simp
    · have : k - 8 < 24 := by omega
      generalize hj : k - 8 = j at this
      obtain rfl : k = j + 8 := by omega
      interval_cases j <;> simp [Instr.opcode]
  have hn : ∀ p : Word, Word.opc p ≠ 0x02 → (encode (.crcByte imm8) == p) = false := by
    intro p hp
    rw [beq_eq_false_iff_ne]
    rintro rfl
    exact hp (by simp [Instr.opcode])
  have hf : ∀ p : Word, (⟨p, 0xFFFFFFFF⟩ : TableRow).selects (encode (.crcByte imm8)) =
      (encode (.crcByte imm8) == p) := by
    intro p
    have : encode (.crcByte imm8) &&& 0xFFFFFFFF#32 = encode (.crcByte imm8) := BitVec.and_allOnes
    simp [TableRow.selects, this]
  simp only [opcodeTable, List.filter_cons, List.filter_nil, hf]
  rw [hn, hn, hn, hn, hn, hn, hn, hn, hn, hn]
  · simp only [TableRow.selects, hm]
    rfl
  all_goals decide

theorem crcBuf : Statement .crcBuf := by unfold Statement; decide

theorem typeCheck : Statement .typeCheck := by unfold Statement; decide

theorem frame : Statement .frame := by unfold Statement; decide

theorem deframe : Statement .deframe := by unfold Statement; decide

theorem seqStart : Statement .seqStart := by unfold Statement; decide

theorem seqNext : Statement .seqNext := by unfold Statement; decide

theorem outStart : Statement .outStart := by unfold Statement; decide

theorem sigEmit : Statement .sigEmit := by unfold Statement; decide

end Sys2Proof.Laws.WordFields
end

