-- ==== Sys2Proof/Tests/Slice0.lean ====
section
/-! SUPPORT. Tests against the vectors V1 to V96 and S1 to S9 of 95_test_vectors.md, the WellFormed smoke tests, and for
every statement with hypotheses a witness that meets them together, per clause at a boundary. -/

namespace Sys2Proof.Tests

open Sys2Proof.Machine

/-! ### Small states -/

/-- The reset state with the word and operands latched, and some bytes in memory at an address. -/
def held (w : Word) (o : Operands := Operands.reset) (a : Nat := 0) (b : List Byte := []) : State :=
  { State.reset with latch := some ⟨w, o⟩, mem := Memory.writeBytes [] a b }

/-- Operands with a source window. -/
def src (a n : Word) : Operands := { Operands.reset with srcAddr := a, srcLen := n }

/-- Operands with a destination window. -/
def dst (a n : Word) : Operands := { Operands.reset with dstAddr := a, dstCap := n }

/-- Operands with a type and a data window. -/
def chunk (t a n : Word) : Operands := { Operands.reset with chunkType := t, srcAddr := a, srcLen := n }

/-- The state with an output cursor. -/
def room (p r : Word) (s : State) : State := { s with out := ⟨p, r, 0⟩ }

/-- The state with an open stream at a cursor. -/
def stream (a r : Word) (s : State) : State := { s with cur := ⟨a, r⟩, seq := .stream }

/-- The state with the largest memory, MEM_SIZE = 2^32. -/
def big (s : State) : State := { s with config := ⟨0xFFFFFFFF⟩ }

/-- The state whose next turns are these. -/
def turns (t : List Turn) (s : State) : State := { s with agenda := t }

/-- The outcome is a next state with the property. -/
def nextHas (o : Host.Outcome State Fault Refusal) (p : State → Bool) : Bool :=
  match o with
  | .next t => p t
  | .fault _ => false
  | .refused _ => false

theorem nextHas_iff {o : Host.Outcome State Fault Refusal} {p : State → Bool} :
    nextHas o p = true ↔ ∃ t, o = .next t ∧ p t = true := by
  cases o <;> simp [nextHas]

/-- The outcome is this fault. -/
def faultIs (o : Host.Outcome State Fault Refusal) (f : Fault) : Bool :=
  match o with
  | .next _ => false
  | .fault g => g == f
  | .refused _ => false

/-- STATUS, ERRCODE, ERR_IDX, ERR_ADDR as the host reads them. -/
def report (s : State) : List Word := [s.status, s.error.errcode, s.error.idx, s.error.addr]

def hello : List Byte := [0x68, 0x65, 0x6C, 0x6C, 0x6F]

/-- The chunk ruSt "hello" (vector V20). -/
def rustHello : List Byte :=
  [0x00, 0x00, 0x00, 0x05, 0x72, 0x75, 0x53, 0x74, 0x68, 0x65, 0x6C, 0x6C, 0x6F, 0xAE, 0x50, 0x8D, 0x6F]

/-- The chunk IEND (vector V21). -/
def iend : List Byte := [0x00, 0x00, 0x00, 0x00, 0x49, 0x45, 0x4E, 0x44, 0xAE, 0x42, 0x60, 0x82]

def pngSig : List Byte := [0x89, 0x50, 0x4E, 0x47, 0x0D, 0x0A, 0x1A, 0x0A]

/-! ### Which words are commands (30_encoding.md rule R307): each check refuses an ill-formed word -/

/-- V84. -/
theorem test_unassigned_opcode_refused :
    Word.opcodeAssigned 0x05000000 = false ∧ Word.wellFormed 0x05000000 = false ∧
      decode 0x05000000 = .error (.unassignedOpcode 0x05) := by decide

/-- V85. -/
theorem test_reserved_field_refused :
    Word.opcodeAssigned 0x01000100 = true ∧ Word.reservedClear 0x01000100 = false ∧
      Word.wellFormed 0x01000100 = false ∧ decode 0x01000100 = .error .reservedField := by decide

/-- V83. -/
theorem test_stray_immediate_refused :
    Word.opcodeAssigned 0x00000001 = true ∧ Word.reservedClear 0x00000001 = true ∧
      Word.immediateAllowed 0x00000001 = false ∧ Word.wellFormed 0x00000001 = false ∧
      decode 0x00000001 = .error .strayImmediate := by decide

/-- V8. -/
theorem test_reserved_field_of_crcByte_refused : decode 0x02000172 = .error .reservedField := by decide

/-! ### Decoding, word by word from 30_encoding.md rules R301 and R304: OPC in bits 31 to 24, RSV, IMM8 -/

theorem test_decode_nop : decode 0b00000000000000000000000000000000#32 = .ok .nop := by decide
theorem test_decode_crcInit : decode 0b00000001000000000000000000000000#32 = .ok .crcInit := by decide
theorem test_decode_crcByte : decode 0b00000010000000000000000001110010#32 = .ok (.crcByte 0x72) := by decide
theorem test_decode_crcByte_top : decode 0b00000010000000000000000011111111#32 = .ok (.crcByte 0xFF) := by decide
theorem test_decode_crcBuf : decode 0b00000011000000000000000000000000#32 = .ok .crcBuf := by decide
theorem test_decode_typeCheck : decode 0b00000100000000000000000000000000#32 = .ok .typeCheck := by decide
theorem test_decode_frame : decode 0b00010000000000000000000000000000#32 = .ok .frame := by decide
theorem test_decode_deframe : decode 0b00010001000000000000000000000000#32 = .ok .deframe := by decide
theorem test_decode_seqStart : decode 0b00100000000000000000000000000000#32 = .ok .seqStart := by decide
theorem test_decode_seqNext : decode 0b00100001000000000000000000000000#32 = .ok .seqNext := by decide
theorem test_decode_outStart : decode 0b00110000000000000000000000000000#32 = .ok .outStart := by decide
theorem test_decode_sigEmit : decode 0b00110001000000000000000000000000#32 = .ok .sigEmit := by decide

theorem test_decodeTableWord : decodeTableWord 32 0x02000072 = some (.crcByte 0x72) ∧
    decodeTableWord 32 0x05000000 = none := by decide

/-! ### The CRC function (section 2.1) -/

theorem test_upd_r : upd 0xFFFFFFFF 0x72 = 0x93F60062 := by decide
theorem test_upd_zero : upd 0xFFFFFFFF 0x00 = 0x2DFD1072 := by decide
theorem test_crc_iend : fold 0xFFFFFFFF [0x49, 0x45, 0x4E, 0x44] = 0x51BD9F7D := by decide +kernel
/-- The check value of rule R601. -/
theorem test_crc_check_value :
    crc32 [0x31, 0x32, 0x33, 0x34, 0x35, 0x36, 0x37, 0x38, 0x39] = 0xCBF43926 := by decide +kernel

/-! ### One step of each command (sections 2.2 to 2.7) -/

/-- V86: the NOP accepted over an earlier error clears it. -/
theorem test_nop : nextHas
    (step (State.issue { State.reset with err := true, error := ⟨.invalidChunkType, false, 0x10, 0, 0⟩ } 0x00000000))
    (fun t => report t == [0x02, 0, 0, 0]) = true := by decide

/-- V1. -/
theorem test_crcInit : nextHas
    (exec .crcInit { held 0x01000000 with ops := { Operands.reset with crcState := 0x12345678 } })
    (fun t => t.ops.crcState == 0xFFFFFFFF && t.crcValue == 0 && t.status == 0x02) = true := by decide

/-- V2. -/
theorem test_crcByte : nextHas (exec (.crcByte 0x72) (held 0x02000072))
    (fun t => t.ops.crcState == 0x93F60062 && t.status == 0x02) = true := by decide

/-- V88: the latched CRC_STATE is used, not the register. -/
theorem test_crcByte_latched : nextHas
    (exec (.crcByte 0x72) { held 0x02000072 with ops := { Operands.reset with crcState := 0 } })
    (fun t => t.ops.crcState == 0x93F60062) = true := by decide

/-- V6: the window ends exactly at MEM_SIZE. -/
theorem test_crcBuf_top : nextHas (exec .crcBuf (held 0x03000000 (src 0xFFFC 4) 0xFFFC [0, 0, 0, 0]))
    (fun t => t.ops.crcState == 0xDEBB20E3 && t.status == 0x02) = true := by decide +kernel

/-- V7. -/
theorem test_crcBuf_busError : nextHas (exec .crcBuf (held 0x03000000 (src 0xFFFC 5)))
    (fun t => report t == [0x04, 0x03000008, 0, 0xFFFC] && t.ops.crcState == 0xFFFFFFFF) = true := by decide

/-- Section 2.3: "Rust" passes although its reserved bit is set. -/
theorem test_typeCheck_reserved : nextHas (exec .typeCheck (held 0x04000000 (chunk 0x52757374 0 0)))
    (fun t => report t == [0x02, 0, 0, 0]) = true := by decide

/-- Section 2.3: a byte ≥ 0x80 is no letter. -/
theorem test_typeCheck_highBit : nextHas (exec .typeCheck (held 0x04000000 (chunk 0xC1424344 0 0)))
    (fun t => report t == [0x04, 0x04000001, 0, 0]) = true := by decide

/-- Section 2.3: the property bits. -/
theorem test_props :
    [0x72755374, 0x52755374, 0x52757374, 0x49454E44, 0x74455874, 0x61626364, 0x31324142, 0x52753174, 0x41424340,
      0x00000000].map props = [0x31#6, 0x33#6, 0x1B#6, 0x27#6, 0x35#6, 0x19#6, 0x00#6, 0x1A#6, 0x06#6, 0x06#6] := by
  decide

/-- V20, with the capacity of V25. -/
theorem test_frame : nextHas (exec .frame (room 0x200 17 (held 0x10000000 (chunk 0x72755374 0x300 5) 0x300 hello)))
    (fun t => dataAt t.mem 0x200 17 == rustHello && t.chunkCrc == 0xAE508D6F && t.out == ⟨0x211, 0, 17⟩ &&
      t.ops.crcState == 0xFFFFFFFF && t.status == 0x02) = true := by decide +kernel

/-- V28: 12 + SRC_LEN does not wrap. -/
theorem test_frame_noWrap : nextHas
    (exec .frame (big (room 0x200 64 (held 0x10000000 (chunk 0x72755374 0 0xFFFFFFF5)))))
    (fun t => report t == [0x04, 0x10000007, 0, 0x200] && t.out == ⟨0x200, 64, 0⟩) = true := by decide

/-- V31. -/
theorem test_deframe : nextHas (exec .deframe (held 0x11000000 (src 0x200 20) 0x200 rustHello))
    (fun t => t.dec == ⟨5, 0x72755374, 0x208, 0xAE508D6F⟩ && t.chunkCrc == 0xAE508D6F && t.cur == ⟨0x211, 3⟩ &&
      t.status == 0x02 && t.typeProps.extractLsb' 8 6 == 0x31) = true := by decide +kernel

/-- V34: the CRC field is one byte short. -/
theorem test_deframe_eof : nextHas (exec .deframe (held 0x11000000 (src 0x200 16) 0x200 rustHello))
    (fun t => report t == [0x04, 0x11000003, 0, 0x200] && t.dec == ⟨0, 0, 0, 0⟩) = true := by decide

/-- V50. -/
theorem test_seqStart : nextHas (exec .seqStart (held 0x20000000 (src 0x100 8) 0x100 pngSig))
    (fun t => t.status == 0x12 && t.cur == ⟨0x108, 0⟩ && t.chunkIdx == 0) = true := by decide

/-- V53. -/
theorem test_seqStart_short : nextHas (exec .seqStart (held 0x20000000 (src 0x100 7) 0x100 pngSig))
    (fun t => report t == [0x34, 0x20000002, 0, 0x100]) = true := by decide

/-- V60: the cursor after a chunk at the top of the largest memory. -/
theorem test_seqNext_top : nextHas
    (exec .seqNext (big (stream 0xFFFFFFF4 12 (held 0x21000000 Operands.reset 0xFFFFFFF4 iend))))
    (fun t => t.status == 0x12 && t.cur == ⟨0, 0⟩ && t.chunkIdx == 1 && t.dec.chunkType == 0x49454E44) = true := by
  decide +kernel

/-- V58: two bytes remain after chunk 0. -/
theorem test_seqNext_eof : nextHas
    (exec .seqNext { stream 0x114 2 (held 0x21000000) with chunkIdx := 1 })
    (fun t => report t == [0x34, 0x21000103, 1, 0x114] && t.cur == ⟨0x114, 2⟩ && t.chunkIdx == 1) = true := by decide

/-- V70. -/
theorem test_outStart : nextHas (exec .outStart (held 0x30000000 (dst 0x400 0x100)))
    (fun t => t.out == ⟨0x400, 0x100, 0⟩ && t.status == 0x02) = true := by decide

/-- V74. -/
theorem test_outStart_busError : nextHas (exec .outStart (room 0x40 9 (held 0x30000000 (dst 0xFFFF 2))))
    (fun t => report t == [0x04, 0x30000008, 0, 0xFFFF] && t.out == ⟨0x40, 9, 0⟩) = true := by decide

/-- V75: the signature at the top of the largest memory. -/
theorem test_sigEmit_top : nextHas (exec .sigEmit (big (room 0xFFFFFFF8 8 (held 0x31000000))))
    (fun t => dataAt t.mem 0xFFFFFFF8 8 == pngSig && t.out == ⟨0, 0, 8⟩ && t.status == 0x02) = true := by decide

/-- V73. -/
theorem test_sigEmit_overflow : nextHas (exec .sigEmit (room 0x400 7 (held 0x31000000)))
    (fun t => report t == [0x04, 0x31000007, 0, 0x400] && t.mem == []) = true := by decide

/-! ### The lifecycle, the port, the faults and reset (sections 2.8 and 2.9) -/

/-- V80: a second command while BUSY = 1. -/
theorem test_reject : nextHas
    (step (turns [.host (.portWrite 0x10 .word 0)] { held 0x03000000 with ctrl := 7 }))
    (fun t => t.status == 0x09 && t.latch == (held 0x03000000).latch && t.irq) = true := by decide

/-- V81, V87: W1C bits of STATUS. -/
theorem test_statusWrite :
    (State.portWrite { State.reset with done := true, reject := true } 0x0C .word 0x8).status = 0x02 ∧
      (State.portWrite { State.reset with done := true, reject := true } 0x0C .word 0).status = 0x0A := by decide

/-- V89, V90. -/
theorem test_portRead :
    State.reset.portRead 0x00 .word = 0x504E4743 ∧ State.reset.portRead 0x04 .word = 0x00010000 ∧
      State.reset.portRead 0x00 .byte = 0 ∧ State.reset.portRead 0x02 .word = 0 ∧
      State.reset.portRead 0x7C .word = 0 ∧ State.reset.portRead 0x10 .word = 0 := by decide

/-- V83: the Illegal word completes. -/
theorem test_illegal : nextHas (step (State.reset.issue 0x00000001))
    (fun t => report t == [0x04, 0x00000005, 0, 0]) = true := by decide

/-- 60_exceptions.md rule R931, at the last byte of the read window. -/
theorem test_hostRace : faultIs
    (step (turns [.host (.memWrite 0x103 0)] (held 0x03000000 (src 0x100 4)))) .hostRace = true := by decide

/-- 60_exceptions.md rule R932, the windows sharing one byte. -/
theorem test_windowOverlap : faultIs
    (exec .frame (room 0x200 64 (held 0x10000000 (chunk 0x72755374 0x210 5)))) .windowOverlap = true := by decide

/-- V95. -/
theorem test_reset : nextHas
    (step (turns [.reset] { held 0x03000000 (src 1 2) 0x100 [7] with ctrl := 7, seq := .failed, err := true }))
    (fun t => report t == [0, 0, 0, 0] && t.ops == Operands.reset && t.latch == none && !t.irq &&
      t.mem.read 0x100 == 7) = true := by decide

/-- A program comes to run: the fetched word is the next step's command (log entry 11). -/
theorem test_withFetchWord : nextHas (step (State.reset.withFetchWord 32 0x02000072))
    (fun t => t.ops.crcState == 0x93F60062) = true := by decide

/-! ### Witnesses of the statements' hypotheses, one per clause, named after the statement -/

theorem witness_OpcodeMapSelectsOneRow :
    ∃ (w : Word) (i : Instr), decode w = .ok i ∧ ∃ r ∈ opcodeTable, r.selects w = true :=
  ⟨0x020000FF, .crcByte 0xFF, by decide⟩

theorem witness_ResetEventFromAnyState_idle :
    ∃ s : State, s.nextTurn = .reset ∧ s.inFlight = none :=
  ⟨turns [.reset] State.reset, by decide⟩

theorem witness_ResetEventFromAnyState_failing :
    ∃ s u : State, s.nextTurn = .reset ∧ s.inFlight.map Prod.fst = some .sigEmit ∧
      exec .sigEmit s = .next u ∧ s.err = false ∧ u.err = true :=
  ⟨turns [.reset] (room 0x400 7 (held 0x31000000)), _, by decide, by decide, rfl, by decide⟩

/-- V96: just outside the window. -/
theorem witness_ResetEventFromAnyState_writing :
    ∃ (s : State) (i : Instr) (l : Latch), s.nextTurn = .reset ∧ s.inFlight = some (i, l) ∧
      (outputWindow i l s).contains 0x3FF = false ∧ (outputWindow i l s).contains 0x408 = false ∧
      (outputWindow i l s).contains 0x407 = true :=
  ⟨turns [.reset] (room 0x400 8 (held 0x31000000)), .sigEmit, ⟨0x31000000, Operands.reset⟩, by decide⟩

theorem witness_CmdWriteAcceptsOrRejects_accept :
    ∃ s : State, s.nextTurn = .host (.portWrite 0x10 .word 0x05000000) ∧ s.busy = false :=
  ⟨turns [.host (.portWrite 0x10 .word 0x05000000)] State.reset, by decide⟩

theorem witness_CmdWriteAcceptsOrRejects_reject :
    ∃ s : State, s.nextTurn = .host (.portWrite 0x10 .word 0) ∧ s.busy = true :=
  ⟨turns [.host (.portWrite 0x10 .word 0)] (held 0x03000000), by decide⟩

theorem witness_CmdWriteAcceptsOrRejects_other :
    ∃ s t : State, s.nextTurn = .host (.portWrite 0x10 .byte 0x01) ∧ AccessSize.byte ≠ .word ∧ step s = .next t :=
  ⟨turns [.host (.portWrite 0x10 .byte 0x01)] State.reset, _, by decide, by decide, rfl⟩

theorem witness_EngineStepRunsTheLatchedCommand :
    ∃ (s : State) (l : Latch) (i : Instr), s.engineMoves ∧ s.latch = some l ∧ decode l.word = .ok i :=
  ⟨turns [.engine] (held 0x11000000), ⟨0x11000000, Operands.reset⟩, .deframe, by decide⟩

theorem witness_EngineStepRunsTheLatchedCommand_idle :
    ∃ s : State, s.engineMoves ∧ s.latch = none :=
  ⟨State.reset, by decide⟩

theorem witness_IllegalWordCompletes :
    ∃ (s : State) (l : Latch) (r : IllegalWord), s.engineMoves ∧ s.latch = some l ∧ decode l.word = .error r :=
  ⟨held 0x01000100, ⟨0x01000100, Operands.reset⟩, .reservedField, by decide⟩

theorem witness_CompletionSetsExactlyOneFlag :
    ∃ s t : State, s.done = false ∧ s.err = false ∧ exec .seqStart s = .next t :=
  ⟨held 0x20000000, _, by decide, by decide, rfl⟩

theorem witness_FailureIsPrecise :
    ∃ s t : State, s.done = false ∧ s.err = false ∧ exec .seqNext s = .next t ∧ t.err = true ∧ t.seq = .failed :=
  ⟨stream 0x114 2 (held 0x21000000), _, by decide, by decide, rfl, by decide, by decide⟩

/-- The memories differ just outside the one byte the command reads. -/
theorem witness_ResultDependsOnlyOnTheReadWindow :
    ∃ (s : State) (l : Latch) (m : Memory), s.latch = some l ∧ m ≠ s.mem ∧
      ∀ a, (readWindow .crcBuf l s).contains a = true → m.read a = s.mem.read a := by
  refine ⟨held 0x03000000 (src 0x100 1) 0x100 [5, 6], ⟨0x03000000, src 0x100 1⟩, [(0x100, 5), (0x101, 7)],
    by decide, by decide, fun a h => ?_⟩
  have : 0x100 ≤ a ∧ a < 0x101 := by simpa [Window.contains, readWindow, Operands.source, src] using h
  obtain rfl : a = 0x100 := by omega
  decide

theorem witness_OperandWritesDoNotReachTheCommand :
    ∃ s t : State, s.done = false ∧ exec (.crcByte 0x72) s = .next t ∧ t.done = true :=
  ⟨held 0x02000072, _, by decide, rfl, by decide⟩

theorem witness_RegisterReadHasNoSideEffect :
    ∃ s : State, s.nextTurn = .host (.portRead 0x14 .word) :=
  ⟨turns [.host (.portRead 0x14 .word)] State.reset, by decide⟩

theorem witness_RegisterReadReturnsTheRegister :
    ∃ (s : State) (k : Nat), k < 32 ∧ s.nextTurn = .host (.portRead (BitVec.ofNat 7 (4 * k)) .word) :=
  ⟨turns [.host (.portRead 0x7C .word)] State.reset, 31, by decide⟩

theorem witness_NarrowOrUnalignedAccessReachesNothing :
    ∃ s u : State, AccessSize.half ≠ .word ∧ s.nextTurn = .host (.portWrite 0x08 .half 7) ∧
      (0x7F#7).toNat % 4 ≠ 0 ∧ u.nextTurn = .host (.portRead 0x7F .word) :=
  ⟨turns [.host (.portWrite 0x08 .half 7)] State.reset, turns [.host (.portRead 0x7F .word)] State.reset, by decide⟩

/-- The last offset below CMD's, while BUSY = 1. -/
theorem witness_ReadWriteRegistersStore :
    ∃ s : State, s.nextTurn = .host (.portWrite 0x0F .word 1) ∧ s.busy = true ∧ 0x0F#7 ≠ 0x10 :=
  ⟨turns [.host (.portWrite 0x0F .word 1)] (held 0), by decide⟩

theorem witness_StatusFieldsAndWrites :
    ∃ s : State, s.nextTurn = .host (.portWrite 0x0C .word 0xE) :=
  ⟨turns [.host (.portWrite 0x0C .word 0xE)] State.reset, by decide⟩

theorem witness_OtherOffsetsIgnoreWrites_step :
    ∃ s : State, s.nextTurn = .host (.portWrite 0x14 .word 1) ∧
      0x14#7 ∉ [0x08#7, 0x0C#7, 0x10#7, 0x20#7, 0x24#7, 0x28#7, 0x2C#7, 0x30#7, 0x38#7] :=
  ⟨turns [.host (.portWrite 0x14 .word 1)] State.reset, by decide⟩

theorem witness_OtherOffsetsIgnoreWrites :
    0x14#7 ∉ [0x08#7, 0x0C#7, 0x10#7, 0x20#7, 0x24#7, 0x28#7, 0x2C#7, 0x30#7, 0x38#7] ∧
      0x6C#7 ∈ [0x6C#7, 0x70#7, 0x74#7, 0x78#7, 0x7C#7] := by decide

theorem witness_HostRaceFaults_read :
    ∃ (s : State) (l : Latch), s.nextTurn = .host (.memWrite 0x103 0) ∧ s.latch = some l ∧
      decode l.word = .ok .crcBuf ∧ (readWindow .crcBuf l s).contains 0x103 = true :=
  ⟨turns [.host (.memWrite 0x103 0)] (held 0x03000000 (src 0x100 4)), ⟨0x03000000, src 0x100 4⟩, by decide⟩

theorem witness_HostRaceFaults_frame :
    ∃ (s : State) (l : Latch), s.nextTurn = .host (.memWrite 0x210 0) ∧ s.latch = some l ∧
      decode l.word = .ok .frame ∧ s.out.ptr.toNat ≤ 0x210 ∧ 0x210 < s.out.ptr.toNat + 12 + l.ops.srcLen.toNat :=
  ⟨turns [.host (.memWrite 0x210 0)] (room 0x200 17 (held 0x10000000 (chunk 0x72755374 0x300 5))),
    ⟨0x10000000, chunk 0x72755374 0x300 5⟩, by decide⟩

theorem witness_HostRaceFaults_sigEmit :
    ∃ (s : State) (l : Latch), s.nextTurn = .host (.memWrite 0x407 0) ∧ s.latch = some l ∧
      decode l.word = .ok .sigEmit ∧ s.out.ptr.toNat ≤ 0x407 ∧ 0x407 < s.out.ptr.toNat + 8 :=
  ⟨turns [.host (.memWrite 0x407 0)] (room 0x400 8 (held 0x31000000)), ⟨0x31000000, Operands.reset⟩, by decide⟩

/-- The byte just past the read window of a command in flight, and with none in flight the last byte of memory. -/
theorem witness_HostWriteElsewhereIsOrdinary :
    (∃ s : State, s.nextTurn = .host (.memWrite 0x104 9) ∧ 0x104 < s.config.memSize ∧
      ∀ i l, s.inFlight = some (i, l) →
        (readWindow i l s).contains 0x104 = false ∧ (outputWindow i l s).contains 0x104 = false) ∧
    ∃ s : State, s.nextTurn = .host (.memWrite 0xFFFF 9) ∧ 0xFFFF < s.config.memSize ∧ s.inFlight = none := by
  refine ⟨⟨turns [.host (.memWrite 0x104 9)] (held 0x03000000 (src 0x100 4)), by decide, by decide, ?_⟩,
    turns [.host (.memWrite 0xFFFF 9)] State.reset, by decide⟩
  intro i l h
  have h' : (some (Instr.crcBuf, (⟨0x03000000, src 0x100 4⟩ : Latch))) = some (i, l) := by rw [← h]; decide
  cases h'
  decide

theorem witness_HostReadOfInFlightOutputIsFree :
    ∃ (s : State) (l : Latch), s.nextTurn = .host (.memRead 0x407) ∧ 0x407 < s.config.memSize ∧ s.latch = some l ∧
      decode l.word = .ok .sigEmit ∧ (outputWindow .sigEmit l s).contains 0x407 = true :=
  ⟨turns [.host (.memRead 0x407)] (room 0x400 8 (held 0x31000000)), ⟨0x31000000, Operands.reset⟩, by decide⟩

/-- With no command in flight, at the last address of memory. -/
theorem witness_HostReadsBackItsWrite_idle :
    ∃ s : State, s.nextTurn = .host (.memRead 0xFFFF) ∧ (0xFFFF#32).toNat < s.config.memSize ∧ s.inFlight = none :=
  ⟨turns [.host (.memRead 0xFFFF)] State.reset, by decide⟩

/-- The last byte of the read window of the FRAME in flight, just below its output window. -/
theorem witness_HostReadsBackItsWrite_in_flight :
    ∃ (s : State) (l : Latch), s.nextTurn = .host (.memRead 0x1FF) ∧ (0x1FF#32).toNat < s.config.memSize ∧
      s.inFlight = some (.frame, l) ∧ (readWindow .frame l s).contains 0x1FF = true ∧
      (outputWindow .frame l s).contains 0x1FF = false ∧ (outputWindow .frame l s).contains 0x200 = true :=
  ⟨turns [.host (.memRead 0x1FF)] (room 0x200 17 (held 0x10000000 (chunk 0x72755374 0x1FB 5))),
    ⟨0x10000000, chunk 0x72755374 0x1FB 5⟩, by decide⟩

theorem witness_HostReadsBackItsWrite :
    ∃ s t : State, s.agenda = [.host (.memWrite 0xFFFF 9), .host (.memRead 0xFFFF)] ∧ step s = .next t :=
  ⟨turns [.host (.memWrite 0xFFFF 9), .host (.memRead 0xFFFF)] State.reset, _, by decide, rfl⟩

theorem witness_HostAddressOutsideMemoryFaults :
    ∃ s u : State, s.inFlight = none ∧ s.config.memSize ≤ 0x10000 ∧ s.nextTurn = .host (.memRead 0x10000) ∧
      u.inFlight = none ∧ u.config.memSize ≤ 0x10000 ∧ u.nextTurn = .host (.memWrite 0x10000 1) :=
  ⟨turns [.host (.memRead 0x10000)] State.reset, turns [.host (.memWrite 0x10000 1)] State.reset, by decide⟩

theorem witness_NopCompletes : ∃ (s : State) (l : Latch), s.latch = some l :=
  ⟨held 0x00000000, ⟨0, Operands.reset⟩, by decide⟩

theorem witness_CrcInitCompletes : ∃ (s : State) (l : Latch), s.latch = some l ∧ decode l.word = .ok .crcInit :=
  ⟨held 0x01000000, ⟨0x01000000, Operands.reset⟩, by decide⟩

theorem witness_CrcByteCompletes :
    ∃ (s : State) (l : Latch), s.latch = some l ∧ decode l.word = .ok (.crcByte 0xFF) :=
  ⟨held 0x020000FF, ⟨0x020000FF, Operands.reset⟩, by decide⟩

/-- V5 and V6. -/
theorem witness_CrcBufCompletes :
    (∃ (s : State) (l : Latch), s.latch = some l ∧ l.ops.srcLen = 0 ∧ s.config.memSize ≤ l.ops.srcAddr.toNat) ∧
    ∃ (s : State) (l : Latch), s.latch = some l ∧ l.ops.srcLen ≠ 0 ∧
      l.ops.srcAddr.toNat + l.ops.srcLen.toNat = s.config.memSize :=
  ⟨⟨held 0x03000000 (src 0x10000 0), ⟨0x03000000, src 0x10000 0⟩, by decide⟩,
    held 0x03000000 (src 0xFFFC 4), ⟨0x03000000, src 0xFFFC 4⟩, by decide⟩

/-- V7, V26 (FRAME), V55 and V74: one byte past the end. -/
theorem witness_WindowOutOfRangeIsBusError :
    (∃ (s : State) (l : Latch), s.latch = some l ∧ l.ops.srcLen ≠ 0 ∧
      s.config.memSize + 1 = l.ops.srcAddr.toNat + l.ops.srcLen.toNat ∧ letters4 l.ops.chunkType = true) ∧
    ∃ (s : State) (l : Latch), s.latch = some l ∧ l.ops.dstCap ≠ 0 ∧
      s.config.memSize + 1 = l.ops.dstAddr.toNat + l.ops.dstCap.toNat :=
  ⟨⟨held 0x03000000 (chunk 0x72755374 0xFFFC 5), ⟨0x03000000, chunk 0x72755374 0xFFFC 5⟩, by decide⟩,
    held 0x30000000 (dst 0xFFFF 2), ⟨0x30000000, dst 0xFFFF 2⟩, by decide⟩

theorem witness_CrcLaws :
    (∃ (c d : Word) (b e : Byte), b ≠ e ∧ c ^^^ b.setWidth 32 = d ^^^ e.setWidth 32) ∧
    (∃ s s' u u' : List Byte, s.length = s'.length ∧ u.length = u'.length ∧ s ≠ u ∧
      List.zipWith (· ^^^ ·) s s' = List.zipWith (· ^^^ ·) u u') ∧ 7 < 8 :=
  ⟨⟨0, 0x80, 0x80, 0, by decide⟩, ⟨[1], [2], [0], [3], by decide⟩, by decide⟩

theorem witness_TypeCheckOutcomes :
    (∃ (s : State) (l : Latch), s.latch = some l ∧ letters4 l.ops.chunkType = true) ∧
    ∃ (s : State) (l : Latch), s.latch = some l ∧ letters4 l.ops.chunkType = false :=
  ⟨⟨held 0x04000000 (chunk 0x415A617A 0 0), ⟨0x04000000, chunk 0x415A617A 0 0⟩, by decide⟩,
    held 0x04000000 (chunk 0x41424340 0 0), ⟨0x04000000, chunk 0x41424340 0 0⟩, by decide⟩

/-- V25, the data window just past the written window. -/
theorem witness_FrameCompletes :
    ∃ (s : State) (l : Latch), s.latch = some l ∧ letters4 l.ops.chunkType = true ∧
      (l.ops.srcLen = 0 ∨ l.ops.srcAddr.toNat + l.ops.srcLen.toNat ≤ s.config.memSize) ∧
      12 + l.ops.srcLen.toNat ≤ s.out.rem.toNat ∧
      ∀ a, l.ops.srcAddr.toNat ≤ a → a < l.ops.srcAddr.toNat + l.ops.srcLen.toNat →
        s.out.ptr.toNat ≤ a → a < s.out.ptr.toNat + (12 + l.ops.srcLen.toNat) → False := by
  refine ⟨room 0x200 17 (held 0x10000000 (chunk 0x72755374 0x211 5) 0x211 hello),
    ⟨0x10000000, chunk 0x72755374 0x211 5⟩, by decide, by decide, by decide, by decide, fun a h1 _ _ h4 => ?_⟩
  have h1 : 0x211 ≤ a := h1
  have h4 : a < 0x211 := h4
  omega

/-- V23 and V24. -/
theorem witness_FrameErrors :
    (∃ (s : State) (l : Latch), s.latch = some l ∧ letters4 l.ops.chunkType = false) ∧
    ∃ (s : State) (l : Latch), s.latch = some l ∧ letters4 l.ops.chunkType = true ∧
      (l.ops.srcLen = 0 ∨ l.ops.srcAddr.toNat + l.ops.srcLen.toNat ≤ s.config.memSize) ∧
      s.out.rem.toNat + 1 = 12 + l.ops.srcLen.toNat :=
  ⟨⟨held 0x10000000 (chunk 0x31324142 0 0), ⟨0x10000000, chunk 0x31324142 0 0⟩, by decide⟩,
    room 0x200 16 (held 0x10000000 (chunk 0x72755374 0x300 5)), ⟨0x10000000, chunk 0x72755374 0x300 5⟩, by decide⟩

/-- The windows share exactly the byte 0x210. -/
theorem witness_FrameOverlapFaults :
    ∃ (s : State) (l : Latch) (a : Nat), s.latch = some l ∧ letters4 l.ops.chunkType = true ∧
      (l.ops.srcLen = 0 ∨ l.ops.srcAddr.toNat + l.ops.srcLen.toNat ≤ s.config.memSize) ∧
      12 + l.ops.srcLen.toNat ≤ s.out.rem.toNat ∧
      l.ops.srcAddr.toNat ≤ a ∧ a < l.ops.srcAddr.toNat + l.ops.srcLen.toNat ∧
      s.out.ptr.toNat ≤ a ∧ a < s.out.ptr.toNat + (12 + l.ops.srcLen.toNat) :=
  ⟨room 0x200 64 (held 0x10000000 (chunk 0x72755374 0x210 5)), ⟨0x10000000, chunk 0x72755374 0x210 5⟩, 0x210,
    by decide⟩

/-- V30: the chunk fills the window. -/
theorem witness_DeframeCompletes :
    ∃ (s : State) (l : Latch), s.latch = some l ∧
      l.ops.srcAddr.toNat + l.ops.srcLen.toNat ≤ s.config.memSize ∧
      goodChunkAt s.mem l.ops.srcAddr.toNat l.ops.srcLen.toNat :=
  ⟨held 0x11000000 (src 0x200 17) 0x200 rustHello, ⟨0x11000000, src 0x200 17⟩, by decide, by decide,
    by decide +kernel⟩

/-- V32 (3 bytes). -/
theorem witness_DeframeErrorOrder_short :
    ∃ (s : State) (l : Latch), s.latch = some l ∧
      (l.ops.srcLen = 0 ∨ l.ops.srcAddr.toNat + l.ops.srcLen.toNat ≤ s.config.memSize) ∧ l.ops.srcLen.toNat = 3 :=
  ⟨held 0x11000000 (src 0x211 3), ⟨0x11000000, src 0x211 3⟩, by decide⟩

/-- V34 (one byte short) and V37 (with a bad type). -/
theorem witness_DeframeErrorOrder_eof :
    ∃ (s : State) (l : Latch), s.latch = some l ∧
      l.ops.srcAddr.toNat + l.ops.srcLen.toNat ≤ s.config.memSize ∧
      l.ops.srcLen.toNat + 1 = 12 + (s.mem.readBe32 l.ops.srcAddr.toNat).toNat ∧
      letters4 (s.mem.readBe32 (l.ops.srcAddr.toNat + 4)) = false :=
  ⟨held 0x11000000 (src 0x200 16) 0x200 [0, 0, 0, 5, 0x31, 0x32, 0x41, 0x42], ⟨0x11000000, src 0x200 16⟩,
    by decide⟩

/-- V36. -/
theorem witness_DeframeErrorOrder_type :
    ∃ (s : State) (l : Latch), s.latch = some l ∧
      l.ops.srcAddr.toNat + l.ops.srcLen.toNat ≤ s.config.memSize ∧
      12 + (s.mem.readBe32 l.ops.srcAddr.toNat).toNat = l.ops.srcLen.toNat ∧
      letters4 (s.mem.readBe32 (l.ops.srcAddr.toNat + 4)) = false :=
  ⟨held 0x11000000 (src 0x200 17) 0x200 [0, 0, 0, 5, 0x31, 0x32, 0x41, 0x42], ⟨0x11000000, src 0x200 17⟩,
    by decide⟩

/-- An IEND chunk whose stored CRC has its last bit changed. -/
theorem witness_DeframeErrorOrder_crc :
    ∃ (s : State) (l : Latch), s.latch = some l ∧
      l.ops.srcAddr.toNat + l.ops.srcLen.toNat ≤ s.config.memSize ∧
      12 + (s.mem.readBe32 l.ops.srcAddr.toNat).toNat = l.ops.srcLen.toNat ∧
      letters4 (s.mem.readBe32 (l.ops.srcAddr.toNat + 4)) = true ∧
      crcOf (s.mem.readBe32 (l.ops.srcAddr.toNat + 4)) (dataAt s.mem (l.ops.srcAddr.toNat + 8)
        (s.mem.readBe32 l.ops.srcAddr.toNat).toNat) ≠
          s.mem.readBe32 (l.ops.srcAddr.toNat + 8 + (s.mem.readBe32 l.ops.srcAddr.toNat).toNat) :=
  ⟨held 0x11000000 (src 0x200 12) 0x200 (iend.dropLast ++ [0x83]), ⟨0x11000000, src 0x200 12⟩, by decide, by decide,
    by decide, by decide, by decide +kernel⟩

/-- The state FRAME of IEND completes from, and the state DEFRAME completes from, its memory given. -/
def framing : State := room 0x200 12 (held 0x10000000 (chunk 0x49454E44 0 0))

def deframing (m : Memory) : State := { held 0x11000000 (src 0x200 12) with mem := m }

theorem witness_FrameThenDeframeRoundTrip :
    ∃ (s t u : State) (l k : Latch), s.latch = some l ∧ s.err = false ∧ exec .frame s = .next t ∧ t.err = false ∧
      u.latch = some k ∧ k.ops.srcAddr = s.out.ptr ∧ 12 + l.ops.srcLen.toNat ≤ k.ops.srcLen.toNat ∧
      k.ops.srcAddr.toNat + k.ops.srcLen.toNat ≤ u.config.memSize ∧
      ∀ a, s.out.ptr.toNat ≤ a → a < s.out.ptr.toNat + (12 + l.ops.srcLen.toNat) → u.mem.read a = t.mem.read a :=
  ⟨framing, _, deframing (Memory.writeBytes [] 0x200 (chunkBytes 0 0x49454E44 [])),
    ⟨0x10000000, chunk 0x49454E44 0 0⟩, ⟨0x11000000, src 0x200 12⟩, by decide, by decide, rfl, rfl, by decide,
    by decide, by decide, by decide, fun _ _ _ => rfl⟩

/-- The last bit of the type field flipped (0x44 to 0xC4, no letter), and, in the second, bit 5 (0x44 to 0x64, a
letter still). -/
theorem witness_TamperedChunkIsRejected (j : Nat) (hj : j = 7 ∨ j = 5) :
    ∃ (s t u : State) (l k : Latch) (x : Nat), s.latch = some l ∧ s.err = false ∧ exec .frame s = .next t ∧
      t.err = false ∧ u.latch = some k ∧ k.ops.srcAddr = s.out.ptr ∧
      12 + l.ops.srcLen.toNat ≤ k.ops.srcLen.toNat ∧
      k.ops.srcAddr.toNat + k.ops.srcLen.toNat ≤ u.config.memSize ∧
      4 ≤ x ∧ x < 8 + l.ops.srcLen.toNat ∧ j < 8 ∧
      ∀ a, s.out.ptr.toNat ≤ a → a < s.out.ptr.toNat + (12 + l.ops.srcLen.toNat) →
        u.mem.read a =
          if a = s.out.ptr.toNat + x then t.mem.read a ^^^ BitVec.ofNat 8 (2 ^ j) else t.mem.read a := by
  refine ⟨framing, _, deframing ((Memory.writeBytes [] 0x200 (chunkBytes 0 0x49454E44 [])).write 0x207
      (0x44 ^^^ BitVec.ofNat 8 (2 ^ j))), ⟨0x10000000, chunk 0x49454E44 0 0⟩, ⟨0x11000000, src 0x200 12⟩, 7,
    by decide, by decide, rfl, rfl, rfl, by decide, by decide, show 0x20C ≤ 0x10000 by decide, by decide, by decide,
    by omega, fun a h1 h2 => ?_⟩
  have h1 : 0x200 ≤ a := h1
  have h2 : a < 0x20C := h2
  obtain ⟨k, hk, rfl⟩ : ∃ k, k < 12 ∧ a = 0x200 + k := ⟨a - 0x200, by omega, by omega⟩
  rcases hj with rfl | rfl <;> (revert k; decide +kernel)

/-- FRAME of the data of a decoded IEND chunk, elsewhere. -/
def reframing : State :=
  room 0x300 12 { held 0x10000000 (chunk 0x49454E44 0x208 0) with mem := Memory.writeBytes [] 0x200 iend }

theorem witness_DecodedChunkReframesToTheSameBytes :
    ∃ (s t u v : State) (l k : Latch), s.latch = some l ∧ s.err = false ∧ exec .deframe s = .next t ∧
      t.err = false ∧ u.latch = some k ∧ u.err = false ∧ u.mem = s.mem ∧ k.ops.chunkType = t.dec.chunkType ∧
      k.ops.srcAddr.toNat = l.ops.srcAddr.toNat + 8 ∧ k.ops.srcLen = t.dec.len ∧
      exec .frame u = .next v ∧ v.err = false := by
  obtain ⟨t, ht, h⟩ := nextHas_iff.1 (show nextHas (exec .deframe (deframing (Memory.writeBytes [] 0x200 iend)))
    (fun t => t.err == false && t.dec.chunkType == 0x49454E44 && t.dec.len == 0) = true by decide +kernel)
  obtain ⟨v, hv, h'⟩ := nextHas_iff.1 (show nextHas (exec .frame reframing) (fun v => v.err == false) = true by
    decide +kernel)
  simp only [Bool.and_eq_true, beq_iff_eq] at h h'
  exact ⟨_, t, reframing, v, ⟨0x11000000, src 0x200 12⟩, ⟨0x10000000, chunk 0x49454E44 0x208 0⟩, by decide,
    by decide, ht, h.1.1, by decide, by decide, rfl, h.1.2.symm, by decide, h.2.symm, hv, h'⟩

/-- V50: the window ends with the signature, and, in the second, at MEM_SIZE. -/
theorem witness_SeqStartCompletes :
    ∃ (s : State) (l : Latch), s.latch = some l ∧
      l.ops.srcAddr.toNat + l.ops.srcLen.toNat = s.config.memSize ∧ l.ops.srcLen.toNat = 8 ∧
      dataAt s.mem l.ops.srcAddr.toNat 8 = [0x89, 0x50, 0x4E, 0x47, 0x0D, 0x0A, 0x1A, 0x0A] :=
  ⟨held 0x20000000 (src 0xFFF8 8) 0xFFF8 pngSig, ⟨0x20000000, src 0xFFF8 8⟩, by decide⟩

/-- V53 and V54. -/
theorem witness_SeqStartFailures :
    (∃ (s : State) (l : Latch), s.latch = some l ∧
      (l.ops.srcLen = 0 ∨ l.ops.srcAddr.toNat + l.ops.srcLen.toNat ≤ s.config.memSize) ∧ l.ops.srcLen.toNat = 7) ∧
    (∃ (s : State) (l : Latch), s.latch = some l ∧
      (l.ops.srcLen = 0 ∨ l.ops.srcAddr.toNat + l.ops.srcLen.toNat ≤ s.config.memSize) ∧
      dataAt s.mem l.ops.srcAddr.toNat 8 ≠ [0x89, 0x50, 0x4E, 0x47, 0x0D, 0x0A, 0x1A, 0x0A]) ∧
    ∃ (s t : State) (l : Latch), s.latch = some l ∧ s.err = false ∧ exec .seqStart s = .next t ∧ t.err = true :=
  ⟨⟨held 0x20000000 (src 0x100 7), ⟨0x20000000, src 0x100 7⟩, by decide⟩,
    ⟨held 0x20000000 (src 0x100 25) 0x100 (0x88 :: pngSig.tail), ⟨0x20000000, src 0x100 25⟩, by decide⟩,
    held 0x20000000 (src 0xFFFC 8), _, ⟨0x20000000, src 0xFFFC 8⟩, by decide, by decide, rfl, by decide⟩

/-- V56 and V57. -/
theorem witness_SeqNextWithoutStreamFails :
    (∃ (s : State) (l : Latch), s.latch = some l ∧ s.seq = .idle) ∧
    ∃ (s : State) (l : Latch), s.latch = some l ∧ s.seq = .failed :=
  ⟨⟨held 0x21000000, ⟨0x21000000, Operands.reset⟩, by decide⟩,
    { held 0x21000000 with seq := .failed }, ⟨0x21000000, Operands.reset⟩, by decide⟩

/-- V51 and V52. -/
theorem witness_SeqNextReportsEndOfStream :
    (∃ (s : State) (l : Latch), s.latch = some l ∧ s.seq = .stream ∧ s.cur.rem = 0) ∧
    ∃ (s : State) (l : Latch), s.latch = some l ∧ s.seq = .ended ∧ s.cur.rem = 0 :=
  ⟨⟨stream 0x108 0 (held 0x21000000), ⟨0x21000000, Operands.reset⟩, by decide⟩,
    { held 0x21000000 with seq := .ended }, ⟨0x21000000, Operands.reset⟩, by decide⟩

/-- V60: the chunk ends at 2^32. -/
theorem witness_SeqNextDecodesChunk :
    ∃ (s : State) (l : Latch), s.latch = some l ∧ (s.seq = .stream ∨ s.seq = .ended) ∧
      s.cur.addr.toNat + s.cur.rem.toNat ≤ s.config.memSize ∧
      goodChunkAt s.mem s.cur.addr.toNat s.cur.rem.toNat :=
  ⟨big (stream 0xFFFFFFF4 12 (held 0x21000000 Operands.reset 0xFFFFFFF4 iend)), ⟨0x21000000, Operands.reset⟩,
    by decide, by decide, by decide, by decide +kernel⟩

/-- V58 (2 bytes), and S8 (one byte short). -/
theorem witness_SeqNextChunkErrorFailsTheStream_eof :
    (∃ (s : State) (l : Latch), s.latch = some l ∧ (s.seq = .stream ∨ s.seq = .ended) ∧ s.cur.rem ≠ 0 ∧
      s.cur.addr.toNat + s.cur.rem.toNat ≤ s.config.memSize ∧ s.cur.rem.toNat < 4) ∧
    ∃ (s : State) (l : Latch), s.latch = some l ∧ (s.seq = .stream ∨ s.seq = .ended) ∧ s.cur.rem ≠ 0 ∧
      s.cur.addr.toNat + s.cur.rem.toNat ≤ s.config.memSize ∧
      s.cur.rem.toNat + 1 = 12 + (s.mem.readBe32 s.cur.addr.toNat).toNat :=
  ⟨⟨stream 0x114 2 (held 0x21000000), ⟨0x21000000, Operands.reset⟩, by decide⟩,
    stream 0x527 11 (held 0x21000000 Operands.reset 0x527 iend), ⟨0x21000000, Operands.reset⟩, by decide⟩

/-- S5: a type byte that is no letter. -/
theorem witness_SeqNextChunkErrorFailsTheStream_type :
    ∃ (s : State) (l : Latch), s.latch = some l ∧ (s.seq = .stream ∨ s.seq = .ended) ∧ s.cur.rem ≠ 0 ∧
      s.cur.addr.toNat + s.cur.rem.toNat ≤ s.config.memSize ∧
      12 + (s.mem.readBe32 s.cur.addr.toNat).toNat = s.cur.rem.toNat ∧
      letters4 (s.mem.readBe32 (s.cur.addr.toNat + 4)) = false :=
  ⟨stream 0x408 17 (held 0x21000000 Operands.reset 0x408 [0, 0, 0, 5, 0x72, 0x75, 0x13, 0x74]),
    ⟨0x21000000, Operands.reset⟩, by decide⟩

/-- An IEND chunk whose stored CRC has its last bit changed (program P5). -/
theorem witness_SeqNextChunkErrorFailsTheStream_crc :
    ∃ (s : State) (l : Latch), s.latch = some l ∧ (s.seq = .stream ∨ s.seq = .ended) ∧ s.cur.rem ≠ 0 ∧
      s.cur.addr.toNat + s.cur.rem.toNat ≤ s.config.memSize ∧
      12 + (s.mem.readBe32 s.cur.addr.toNat).toNat = s.cur.rem.toNat ∧
      letters4 (s.mem.readBe32 (s.cur.addr.toNat + 4)) = true ∧
      crcOf (s.mem.readBe32 (s.cur.addr.toNat + 4)) (dataAt s.mem (s.cur.addr.toNat + 8)
        (s.mem.readBe32 s.cur.addr.toNat).toNat) ≠
          s.mem.readBe32 (s.cur.addr.toNat + 8 + (s.mem.readBe32 s.cur.addr.toNat).toNat) :=
  ⟨stream 0x419 12 (held 0x21000000 Operands.reset 0x419 (iend.dropLast ++ [0x83])), ⟨0x21000000, Operands.reset⟩,
    by decide, by decide, by decide, by decide, by decide, by decide, by decide +kernel⟩

/-- V72 (empty, out of memory), and a window that ends at MEM_SIZE. -/
theorem witness_OutStartCompletes :
    (∃ (s : State) (l : Latch), s.latch = some l ∧ l.ops.dstCap = 0 ∧ s.config.memSize ≤ l.ops.dstAddr.toNat) ∧
    ∃ (s : State) (l : Latch), s.latch = some l ∧ l.ops.dstCap ≠ 0 ∧
      l.ops.dstAddr.toNat + l.ops.dstCap.toNat = s.config.memSize :=
  ⟨⟨held 0x30000000 (dst 0x12345 0), ⟨0x30000000, dst 0x12345 0⟩, by decide⟩,
    held 0x30000000 (dst 0xFFFF 1), ⟨0x30000000, dst 0xFFFF 1⟩, by decide⟩

/-- V71 with the least room, and V73. -/
theorem witness_SigEmitOutcomes :
    (∃ (s : State) (l : Latch), s.latch = some l ∧ s.out.rem.toNat = 8) ∧
    ∃ (s : State) (l : Latch), s.latch = some l ∧ s.out.rem.toNat = 7 :=
  ⟨⟨room 0x400 8 (held 0x31000000), ⟨0x31000000, Operands.reset⟩, by decide⟩,
    room 0x400 7 (held 0x31000000), ⟨0x31000000, Operands.reset⟩, by decide⟩

theorem witness_CursorStaysInCheckedWindow :
    (∃ s t : State, s.CursorInv ∧ step s = .next t) ∧
    ∃ s t : State, s.CursorInv ∧ exec .seqNext s = .next t ∧ s.err = false ∧ t.err = true :=
  ⟨⟨State.reset, _, by decide, rfl⟩, stream 0xFFFE 2 (held 0x21000000), _, by decide, rfl, by decide, by decide⟩

theorem witness_OutputStaysInCheckedWindow :
    (∃ s t : State, s.OutputInv ∧ step s = .next t) ∧
    ∃ (s t : State) (l : Latch), s.OutputInv ∧ s.latch = some l ∧ s.err = false ∧ exec .sigEmit s = .next t ∧
      t.err = false ∧ (outputWindow .sigEmit l s).contains 0xFFFF = true :=
  ⟨⟨State.reset, _, by decide, rfl⟩,
    room 0xFFF8 8 (held 0x31000000), _, ⟨0x31000000, Operands.reset⟩, by decide, by decide, by decide, rfl, rfl,
      by decide⟩

/-- The reset state meets the invariant, and a step leads on from it. -/
theorem witness_EveryStepKeepsTheInvariant : ∃ s t : State, s.Inv ∧ step s = .next t := by
  refine ⟨State.reset, State.reset, ⟨⟨by decide, by simp [State.reset]⟩, ?_, ?_, ?_, ?_, ?_, ?_, ?_, ?_, ?_, ?_⟩, rfl⟩
  all_goals decide

/-- One state for each of the five clauses. -/
theorem witness_SequencerTransitions :
    (∃ s t : State, (s.busy = true → s.err = false) ∧ step s = .next t ∧ s.nextTurn = .reset) ∧
    (∃ (s t : State) (h : HostStep), (s.busy = true → s.err = false) ∧ step s = .next t ∧ s.nextTurn = .host h) ∧
    (∃ s t : State, (s.busy = true → s.err = false) ∧ step s = .next t ∧ s.engineMoves ∧
      s.inFlight.map Prod.fst = some .seqStart) ∧
    (∃ s t : State, (s.busy = true → s.err = false) ∧ step s = .next t ∧ s.engineMoves ∧
      s.inFlight.map Prod.fst = some .seqNext) ∧
    ∃ s t : State, (s.busy = true → s.err = false) ∧ step s = .next t ∧ s.engineMoves ∧
      s.inFlight.map Prod.fst ≠ some .seqStart ∧ s.inFlight.map Prod.fst ≠ some .seqNext :=
  ⟨⟨turns [.reset] State.reset, _, by decide, rfl, by decide⟩,
    ⟨turns [.host (.portRead 0 .word)] State.reset, _, .portRead 0 .word, by decide, rfl, by decide⟩,
    ⟨held 0x20000000, _, by decide, rfl, by decide, by decide⟩,
    ⟨stream 0x114 2 (held 0x21000000), _, by decide, rfl, by decide, by decide⟩,
    State.reset, _, by decide, rfl, by decide, by decide, by decide⟩

theorem witness_CommandsLeaveHostRegisters : ∃ s t : State, exec .outStart s = .next t :=
  ⟨held 0x30000000 (dst 0x400 0x100), _, rfl⟩

theorem witness_CommandsWriteOnlyTheirOutputWindow :
    (∃ (s t : State) (l : Latch), s.latch = some l ∧ exec .sigEmit s = .next t ∧
      (outputWindow .sigEmit l s).contains 0x3FF = false ∧ (outputWindow .sigEmit l s).contains 0x408 = false) ∧
    ∃ (s t : State) (l : Latch), s.latch = some l ∧ exec .outStart s = .next t :=
  ⟨⟨room 0x400 8 (held 0x31000000), _, ⟨0x31000000, Operands.reset⟩, by decide, rfl, by decide, by decide⟩,
    held 0x30000000, _, ⟨0x30000000, Operands.reset⟩, by decide, rfl⟩

theorem witness_HostLeavesReadOnlyRegisters :
    ∃ (s t : State) (h : HostStep), s.nextTurn = .host h ∧ step s = .next t ∧
      ∀ w, h ≠ .portWrite 0x10 .word w :=
  ⟨turns [.host (.portWrite 0x54 .word 1)] State.reset, _, .portWrite 0x54 .word 1, by decide, rfl, by simp⟩

/-! ### Whole-file decode (44_sequencer.md rule R816) -/

/-- The reset state with these bytes in memory. -/
def file (a : Nat) (b : List Byte) : State := { State.reset with mem := Memory.writeBytes [] a b }

/-- The file of S7: ruSt "hello", tEXt "hi", IEND. -/
def threeChunks : List Byte :=
  pngSig ++ rustHello ++
    [0x00, 0x00, 0x00, 0x02, 0x74, 0x45, 0x58, 0x74, 0x68, 0x69, 0x75, 0x69, 0xE6, 0xDF] ++ iend

/-- S6, run turn by turn with no busy reads: the signature alone decodes to no chunks, with STATUS = 0x62. -/
theorem test_decodeFile_signature_only :
    (match decodeFile 0x400 8 (fun _ => 0) (file 0x400 pngSig) with
      | .next (t, o) => t.status == 0x62 && t.chunkIdx == 0 && o == .ok []
      | .fault _ => false
      | .refused _ => false) = true := by decide +kernel

/-- S7: three chunks in stream order, whatever the busy reads. -/
theorem test_decodeFile_ok (busyReads : Nat → Nat) :
    ∃ t, decodeFile 0x500 51 busyReads (file 0x500 threeChunks) =
      .next (t, .ok [⟨5, 0x72755374, 0x510, 0xAE508D6F⟩, ⟨2, 0x74455874, 0x521, 0x7569E6DF⟩,
        ⟨0, 0x49454E44, 0x52F, 0xAE426082⟩]) := by
  have h : decodeBytes (file 0x500 threeChunks).config (file 0x500 threeChunks).mem 0x500 51 =
      .ok [⟨5, 0x72755374, 0x510, 0xAE508D6F⟩, ⟨2, 0x74455874, 0x521, 0x7569E6DF⟩,
        ⟨0, 0x49454E44, 0x52F, 0xAE426082⟩] := by decide +kernel
  exact h ▸ decodeFile_eq 0x500 51 busyReads (file 0x500 threeChunks) rfl

/-- S8: the same file one byte short fails at chunk 2 with UNEXPECTED_EOF, and the chunks before it are discarded. -/
theorem test_decodeFile_truncated (busyReads : Nat → Nat) :
    ∃ t, decodeFile 0x500 50 busyReads (file 0x500 threeChunks) = .next (t, .chunkError 2 .unexpectedEof) := by
  have h : decodeBytes (file 0x500 threeChunks).config (file 0x500 threeChunks).mem 0x500 50 =
      .chunkError 2 .unexpectedEof := by decide +kernel
  exact h ▸ decodeFile_eq 0x500 50 busyReads (file 0x500 threeChunks) rfl

/-- R802: a window of 7 bytes gives INVALID_SIGNATURE. -/
theorem test_decodeFile_short (busyReads : Nat → Nat) :
    ∃ t, decodeFile 0x400 7 busyReads (file 0x400 pngSig) = .next (t, .invalidSignature) := by
  have h : decodeBytes (file 0x400 pngSig).config (file 0x400 pngSig).mem 0x400 7 = .invalidSignature := by
    decide +kernel
  exact h ▸ decodeFile_eq 0x400 7 busyReads (file 0x400 pngSig) rfl

end Sys2Proof.Tests
end

section
/-! PROOFS. The register port: the offsets a host write can change something at (10_state.md rule R103), and the
reserved ones (rule R128). -/

namespace Sys2Proof.Machine

/-- The offsets at which a 32-bit host write can have an effect: those of CTRL, STATUS, CMD and the read-write operand
registers (10_state.md rule R103). -/
abbrev writableOffsets : List (BitVec 7) := [0x08, 0x0C, 0x10, 0x20, 0x24, 0x28, 0x2C, 0x30, 0x38]

/-- The reserved offsets (10_state.md rule R128). -/
abbrev reservedOffsets : List (BitVec 7) := [0x6C, 0x70, 0x74, 0x78, 0x7C]

/-- A register is reached at its own offset only. -/
theorem eq_offsetOf_of_regAt {offset : BitVec 7} {r : Reg} (h : regAt offset = some r) : offset = offsetOf r := by
  unfold regAt at h
  split at h <;> cases h <;> exact BitVec.eq_of_toNat_eq ‹_›

theorem regAt_reserved {offset : BitVec 7} (h : offset ∈ reservedOffsets) : regAt offset = none := by
  revert offset
  decide

/-- A host write to a read-only register is ignored (10_state.md rule R103, 20_memory.md rule R220). -/
theorem writeReg_of_offset_not_writable (s : State) (v : Word) {r : Reg} (h : offsetOf r ∉ writableOffsets) :
    s.writeReg v r = s := by
  cases r
  case ctrl | status | cmd | srcAddr | srcLen | dstAddr | dstCap | type | crcState => exact absurd (by decide) h
  all_goals rfl

theorem portWrite_of_regAt_none {offset : BitVec 7} (s : State) (size : AccessSize) (v : Word)
    (h : regAt offset = none) : s.portWrite offset size v = s := by
  cases size <;> simp [State.portWrite, accessed, h]

theorem portRead_of_regAt_none {offset : BitVec 7} (s : State) (size : AccessSize) (h : regAt offset = none) :
    s.portRead offset size = 0 := by
  cases size <;> simp [State.portRead, accessed, h]

theorem portWrite_word_of_regAt {offset : BitVec 7} {r : Reg} (s : State) (v : Word) (h : regAt offset = some r) :
    s.portWrite offset .word v = s.writeReg v r := by
  simp [State.portWrite, accessed, h]

/-- Outside `writableOffsets` a write reaches a read-only register or none, so it is ignored. -/
theorem portWrite_word_of_not_writable {offset : BitVec 7} (s : State) (v : Word) (h : offset ∉ writableOffsets) :
    s.portWrite offset .word v = s := by
  cases hr : regAt offset with
  | none => exact portWrite_of_regAt_none s .word v hr
  | some r =>
    obtain rfl := eq_offsetOf_of_regAt hr
    rw [portWrite_word_of_regAt s v hr, writeReg_of_offset_not_writable s v h]

/-- Settles O19: a write is ignored by a read-only register and where there is none, and no register is at a reserved
offset. -/
theorem otherOffsetsIgnoreWrites : Obligations.OtherOffsetsIgnoreWrites := by
  intro s offset v
  constructor
  · intro ho
    refine ⟨portWrite_word_of_not_writable s v ho, fun hturn => ?_⟩
    rw [step_portWrite hturn, portWrite_word_of_not_writable s.popTurn v ho]
  · intro ho
    have hnone : regAt offset = none := regAt_reserved ho
    exact ⟨portWrite_of_regAt_none s .word v hnone, portRead_of_regAt_none s .word hnone⟩

end Sys2Proof.Machine
end

section
/-! PROOFS. The command lifecycle: acceptance and rejection (40_command.md rules R402 to R404), the completion of an
Illegal word (rule R407) and precise failure (rule R406). -/

namespace Sys2Proof.Machine

/-! ### Acceptance and rejection -/

theorem writeCmd_idle {s : State} (w : Word) (h : s.busy = false) : s.writeCmd w = s.accept w := by
  simp [State.writeCmd, h]

theorem writeCmd_busy {s : State} (w : Word) (h : s.busy = true) : s.writeCmd w = s.rejectCommand := by
  simp [State.writeCmd, h]

/-- On the host's turn with a 32-bit write to offset 0x10, the step is the CMD write (10_state.md rule R103). -/
theorem step_cmdWrite {s : State} {w : Word} (h : s.nextTurn = .host (.portWrite 0x10 .word w)) :
    step s = .next (s.popTurn.writeCmd w) :=
  step_portWrite h

/-- CMD is reached by a 32-bit access at offset 0x10 only (10_state.md rule R103, 20_memory.md rule R221). -/
theorem accessed_cmd {offset : BitVec 7} {size : AccessSize} (h : accessed offset size = some .cmd) :
    offset = 0x10 ∧ size = .word := by
  cases size with
  | byte => cases h
  | half => cases h
  | word => exact ⟨eq_offsetOf_of_regAt h, rfl⟩

/-- Only a write that reaches CMD changes LATCH (40_command.md rule R402). -/
theorem portWrite_latch_of_not_cmd {offset : BitVec 7} {size : AccessSize} (s : State) (v : Word)
    (h : accessed offset size ≠ some .cmd) : (s.portWrite offset size v).latch = s.latch := by
  rcases portWrite_cases s offset size v with
    hw | ⟨-, hw⟩ | ⟨-, hw⟩ | ⟨o, hw⟩ | ⟨hcmd, -⟩ | ⟨hcmd, -⟩
  · rw [hw]
  · rw [hw]
  · rw [hw, State.writeStatus_latch]
  · rw [hw]
  · exact absurd hcmd h
  · exact absurd hcmd h

/-- Settles O8: the CMD write accepts or rejects as BUSY says, and a write elsewhere does not reach CMD. -/
theorem cmdWriteAcceptsOrRejects : Obligations.CmdWriteAcceptsOrRejects := by
  intro s
  refine ⟨fun w hturn hidle => ?_, fun w hturn hbusy => ?_, fun offset size w t hturn hother hstep => ?_⟩
  · rw [step_cmdWrite hturn, writeCmd_idle (s := s.popTurn) w hidle]
    rfl
  · rw [step_cmdWrite hturn, writeCmd_busy (s := s.popTurn) w hbusy]
    rfl
  · have hcmd : accessed offset size ≠ some .cmd := by
      intro hc
      obtain ⟨hoffset, hsize⟩ := accessed_cmd hc
      exact hother.elim (absurd hoffset) (absurd hsize)
    rw [step_portWrite hturn] at hstep
    cases hstep
    exact portWrite_latch_of_not_cmd s.popTurn w hcmd

/-! ### Failure -/

/-- Recording an error writes the flags, the error record and SEQ_STATE, and nothing else (60_exceptions.md rules R905,
R908). -/
theorem recordError_eq_failedWith (s : State) (w : Word) (e : CmdError) :
    s.recordError w e = s.failedWith (s.recordError w e).error (s.recordError w e).seq := rfl

/-- A command that answers with ERR = 1 from ERR = 0 has raised an error: a commit leaves ERR alone. -/
theorem exec_next_err {i : Instr} {s t : State} (hs : s.err = false) (h : exec i s = .next t) (ht : t.err = true) :
    ∃ l e, ruleOf i s l = .raise e ∧ t = s.recordError l.word e := by
  obtain ⟨l, -, ⟨u, hu, rfl⟩ | ⟨e, he, rfl⟩⟩ := exec_next h
  · obtain ⟨-, -, herr, -⟩ := ruleOf_ok_keeps hu
    simp [herr, hs] at ht
  · exact ⟨l, e, he, rfl⟩

/-- The errors that fail the sequence: all of SEQ_START's, and SEQ_NEXT's chunk errors (44_sequencer.md rules R803,
R813). -/
theorem ruleOf_raise_failsSeq {i : Instr} {s : State} {l : Latch} {e : CmdError} (h : ruleOf i s l = .raise e) :
    e.failsSeq = true ↔ i = .seqStart ∨ (i = .seqNext ∧ e.inSeq = true) := by
  obtain ⟨-, hinSeq, hfails⟩ := ruleOf_raise h
  refine ⟨hfails, ?_⟩
  rintro (rfl | ⟨-, hin⟩)
  · obtain ⟨-, hseq, -⟩ := seqStartRule_raise h
    exact hseq
  · exact (hinSeq hin).2

/-- Settles O12: the failed command raised an error, and recording it is all that was done. -/
theorem failureIsPrecise : Obligations.FailureIsPrecise := by
  intro i s t hdone herr hexec hfail
  obtain ⟨l, e, he, rfl⟩ := exec_next_err herr hexec hfail
  obtain ⟨hcode, -⟩ := ruleOf_raise he
  exact ⟨recordError_eq_failedWith s l.word e, hdone, rfl, hcode, if_congr (ruleOf_raise_failsSeq he) rfl rfl⟩

/-! ### Illegal words -/

theorem step_of_engineMoves {s : State} (h : s.engineMoves) : step s = engineTurn s.popTurn := step_of_turn h

/-- What the completion of an Illegal word leaves (40_command.md rule R407). -/
theorem execIllegal_eq {s : State} {l : Latch} (hl : s.latch = some l) :
    execIllegal s = .next (s.failedWith ⟨.illegalCommand, false, l.word.extractLsb' 24 8, 0, 0⟩ s.seq) :=
  complete_raise (e := { code := .illegalCommand, addr := 0 }) hl rfl

/-- Settles O10: the engine's turn on an Illegal word is its completion. -/
theorem illegalWordCompletes : Obligations.IllegalWordCompletes := by
  intro s l r hmoves hl hr
  have hpop : s.popTurn.latch = some l := hl
  rw [step_of_engineMoves hmoves, engineTurn_illegal hpop hr]
  exact execIllegal_eq hpop

end Sys2Proof.Machine
end

section
/-! PROOFS. The chunk codec: the errors of DEFRAME (43_chunk_codec.md rules R712 to R715, R720). -/

namespace Sys2Proof.Machine

/-- With its source window in range, DEFRAME raises what the chunk decoder raises, at SRC_ADDR (43_chunk_codec.md rule
R720). -/
theorem deframeRule_of_decodeChunk_error {s : State} {l : Latch} {c : ErrCode}
    (hr : inRange s.config l.ops.source = true)
    (hc : decodeChunk s.mem l.ops.srcAddr.toNat l.ops.srcLen.toNat = .error c) :
    deframeRule s l = .raise { code := c, addr := l.ops.srcAddr } := by
  simp [deframeRule, hr, hc]

/-- What a DEFRAME that raises an error of the chunk decoder leaves: the error record at SRC_ADDR with IN_SEQ = 0, and
all else as it was (43_chunk_codec.md rule R720, 40_command.md rule R406). -/
theorem exec_deframe_of_decodeChunk_error {s : State} {l : Latch} {c : ErrCode} (hl : s.latch = some l)
    (hr : inRange s.config l.ops.source = true)
    (hc : decodeChunk s.mem l.ops.srcAddr.toNat l.ops.srcLen.toNat = .error c) :
    exec .deframe s =
      .next (s.failedWith ⟨c, false, l.word.extractLsb' 24 8, 0, l.ops.srcAddr⟩ s.seq) :=
  exec_raise (i := .deframe) hl (deframeRule_of_decodeChunk_error hr hc)

/-- Settles O42: each clause is one error of the chunk decoder, which DEFRAME hands on. -/
theorem deframeErrorOrder : Obligations.DeframeErrorOrder := by
  intro s l hl hwindow
  have hr : inRange s.config l.ops.source = true := inRange_words hwindow
  refine ⟨fun hshort => ?_, fun hlen hletters => ?_, fun hlen hletters hcrc => ?_⟩
  · exact exec_deframe_of_decodeChunk_error hl hr (decodeChunk_eof hshort)
  · exact exec_deframe_of_decodeChunk_error hl hr (decodeChunk_badType hlen hletters)
  · exact exec_deframe_of_decodeChunk_error hl hr (decodeChunk_badCrc hlen hletters hcrc)

end Sys2Proof.Machine
end

section
/-! PROOFS. The chunk sequencer: the failures of SEQ_START (44_sequencer.md rules R802, R803), and SEQ_NEXT with no open
stream (rule R815), at the end of the stream (rule R812) and at a chunk that does not decode (rule R813). -/

namespace Sys2Proof.Machine

theorem SeqState.isOpen_iff {q : SeqState} : q.isOpen = true ↔ q = .stream ∨ q = .ended := by
  cases q <;> decide

theorem SeqState.isOpen_eq_false_iff {q : SeqState} : q.isOpen = false ↔ q = .idle ∨ q = .failed := by
  cases q <;> decide

/-! ### SEQ_START -/

theorem signatureOk_eq_false_iff {m : Memory} {w : Window} :
    signatureOk m w = false ↔ w.len < 8 ∨ dataAt m w.base 8 ≠ sig := by
  rw [Bool.eq_false_iff, Ne, signatureOk_iff, not_and_or, Nat.not_le]

/-- With its source window in range, SEQ_START without a signature raises INVALID_SIGNATURE at SRC_ADDR and fails the
sequence (44_sequencer.md rules R802, R803). -/
theorem seqStartRule_invalidSignature {s : State} {l : Latch} (hr : inRange s.config l.ops.source = true)
    (hs : signatureOk s.mem l.ops.source = false) :
    seqStartRule s l = .raise { code := .invalidSignature, addr := l.ops.srcAddr, failsSeq := true } := by
  simp [seqStartRule, hr, hs]

/-- Every error of SEQ_START fails the sequence, and recording it leaves the cursor and CHUNK_IDX (44_sequencer.md rule
R803). -/
theorem exec_seqStart_err {s t : State} (hs : s.err = false) (h : exec .seqStart s = .next t) (ht : t.err = true) :
    t.seq = .failed ∧ t.cur = s.cur ∧ t.chunkIdx = s.chunkIdx := by
  obtain ⟨l, e, he, rfl⟩ := exec_next_err hs h ht
  obtain ⟨-, hfails, -⟩ := seqStartRule_raise he
  exact ⟨by rw [State.recordError_seq, if_pos hfails], rfl, rfl⟩

/-- Settles O47: the signature check fails with the error it raises, and every error of SEQ_START fails the sequence. -/
theorem seqStartFailures : Obligations.SeqStartFailures := by
  intro s l hl
  refine ⟨fun hwindow hbad => ?_, fun t => exec_seqStart_err⟩
  have hr : inRange s.config l.ops.source = true := inRange_words hwindow
  have hs : signatureOk s.mem l.ops.source = false := signatureOk_eq_false_iff.2 hbad
  exact exec_raise (i := .seqStart) hl (seqStartRule_invalidSignature hr hs)

/-! ### SEQ_NEXT -/

/-- SEQ_NEXT with no open stream raises SEQUENCE_ERROR and leaves SEQ_STATE (44_sequencer.md rule R815). -/
theorem seqNextRule_closed {s : State} (l : Latch) (hq : s.seq.isOpen = false) :
    seqNextRule s l = .raise { code := .sequenceError, addr := 0 } := by
  simp [seqNextRule, hq]

/-- What a SEQ_NEXT that raises an error of the chunk decoder leaves: the error record with IN_SEQ = 1 at the chunk's
index and start address, SEQ_STATE = FAILED, and all else as it was (44_sequencer.md rule R813). -/
theorem exec_seqNext_of_decodeChunk_error {s : State} {l : Latch} {c : ErrCode} (hl : s.latch = some l)
    (hq : s.seq.isOpen = true) (hrem : s.cur.rem ≠ 0) (hr : inRange s.config s.cur.window = true)
    (hc : decodeChunk s.mem s.cur.addr.toNat s.cur.rem.toNat = .error c) :
    exec .seqNext s =
      .next (s.failedWith ⟨c, true, l.word.extractLsb' 24 8, s.chunkIdx, s.cur.addr⟩ .failed) := by
  have hraise : seqNextRule s l = .raise (chunkErrorAt c s) := by
    rw [seqNextRule_decode l hq hrem hr, hc]
  exact exec_raise (i := .seqNext) hl hraise

/-- Settles O48: no stream is open in IDLE and FAILED. -/
theorem seqNextWithoutStreamFails : Obligations.SeqNextWithoutStreamFails := by
  intro s l hl hq
  exact exec_raise (i := .seqNext) hl (seqNextRule_closed l (SeqState.isOpen_eq_false_iff.2 hq))

/-- Settles O49: an open stream with nothing left commits SEQ_STATE = END. -/
theorem seqNextReportsEndOfStream : Obligations.SeqNextReportsEndOfStream := by
  intro s l hl hq hrem
  exact ⟨_, exec_ok (i := .seqNext) hl (seqNextRule_end l (SeqState.isOpen_iff.2 hq) hrem), rfl, rfl⟩

/-- Settles O51: each clause is one error of the chunk decoder, which SEQ_NEXT records with the chunk's index. -/
theorem seqNextChunkErrorFailsTheStream : Obligations.SeqNextChunkErrorFailsTheStream := by
  intro s l hl hq hrem hwindow
  have hopen : s.seq.isOpen = true := SeqState.isOpen_iff.2 hq
  have hr : inRange s.config s.cur.window = true := inRange_words (.inr hwindow)
  refine ⟨fun hshort => ?_, fun hlen hletters => ?_, fun hlen hletters hcrc => ?_⟩
  · exact exec_seqNext_of_decodeChunk_error hl hopen hrem hr (decodeChunk_eof hshort)
  · exact exec_seqNext_of_decodeChunk_error hl hopen hrem hr (decodeChunk_badType hlen hletters)
  · exact exec_seqNext_of_decodeChunk_error hl hopen hrem hr (decodeChunk_badCrc hlen hletters hcrc)

end Sys2Proof.Machine
end

section
/-! PROOFS. The interrupt output (60_exceptions.md rule R920): the flags at their bits of STATUS (10_state.md rule
R107). -/

namespace Sys2Proof.Machine

/-- A flag is set at its own bit only. -/
theorem getLsbD_flagAt {n k : Nat} (b : Bool) (j : Nat) (hk : k < n) :
    (flagAt n b k).getLsbD j = (b && decide (k = j)) := by
  cases b with
  | false => simp [flagAt]
  | true =>
    simp only [flagAt, if_true, BitVec.getLsbD_ofNat, Nat.testBit_two_pow, Bool.true_and]
    by_cases hkj : k = j
    · simp [hkj ▸ hk, hkj]
    · simp [hkj]

/-- Below bit 4 STATUS holds the four flags, each at its own bit (10_state.md rule R107). -/
theorem State.getLsbD_status_of_lt (s : State) {j : Nat} (hj : j < 4) :
    s.status.getLsbD j =
      (s.busy && decide (0 = j) || s.done && decide (1 = j) || s.err && decide (2 = j) ||
        s.reject && decide (3 = j)) := by
  have heos : decide (6 = j) = false := decide_eq_false (by omega)
  simp [State.status, getLsbD_flagAt, BitVec.getLsbD_shiftLeft, hj, heos]

theorem State.getLsbD_status_one (s : State) : s.status.getLsbD 1 = s.done := by
  rw [s.getLsbD_status_of_lt (by decide)]
  simp

theorem State.getLsbD_status_two (s : State) : s.status.getLsbD 2 = s.err := by
  rw [s.getLsbD_status_of_lt (by decide)]
  simp

theorem State.getLsbD_status_three (s : State) : s.status.getLsbD 3 = s.reject := by
  rw [s.getLsbD_status_of_lt (by decide)]
  simp

/-- Settles O24: the bits of STATUS are the flags `irq` reads, and at reset no flag is set. -/
theorem irqIsTheEnabledStatus : Obligations.IrqIsTheEnabledStatus := by
  constructor
  · intro s
    rw [s.getLsbD_status_one, s.getLsbD_status_two, s.getLsbD_status_three]
    rfl
  · rfl

end Sys2Proof.Machine
end

section
/-! PROOFS. The chunk codec: FRAME with overlapping windows (43_chunk_codec.md rule R704, 60_exceptions.md rule
R932). -/

namespace Sys2Proof.Machine

/-- A FRAME that passed its checks stops when its data window overlaps the bytes it would write (43_chunk_codec.md rule
R704). -/
theorem frameRule_overlap {s : State} {l : Latch} (hc : frameCheck s l = none)
    (ho : l.ops.source.overlaps (s.out.window (frameSize l.ops)) = true) :
    frameRule s l = .stop .windowOverlap := by
  simp [frameRule, hc, ho]

/-- Settles O40: the three checks pass, and the shared address makes the two windows overlap. -/
theorem frameOverlapFaults : Obligations.FrameOverlapFaults := by
  intro s l a hl hletters hwindow hroom hsrc hsrc' hout hout'
  have hcheck : frameCheck s l = none := frameCheck_eq_none.2 ⟨hletters, inRange_words hwindow, hroom⟩
  have hoverlap : l.ops.source.overlaps (s.out.window (frameSize l.ops)) = true :=
    (Window.overlaps_iff _ _).2
      ⟨a, (Window.contains_iff _ _).2 ⟨hsrc, hsrc'⟩, (Window.contains_iff _ _).2 ⟨hout, hout'⟩⟩
  exact exec_stop (i := .frame) hl (frameRule_overlap hcheck hoverlap)

end Sys2Proof.Machine
end

section
/-! PROOFS. Reset: the reset column of the register map (10_state.md rule R103, 70_reset_and_hazards.md rule R1001). -/

namespace Sys2Proof.Machine

/-- The reset column of the register map (10_state.md rule R103). -/
def resetValue : Reg → Word
  | .id => 0x504E4743
  | .version => 0x00010000
  | .typeProps => 0x00000606
  | .crcState => 0xFFFFFFFF
  | _ => 0

/-- Each register holds its reset value. Those the state does not store as words (STATUS, ERRCODE, TYPE_PROPS and
CRC_VALUE: 10_state.md rules R107, R109, R117, R119) are evaluated at reset. -/
theorem State.readReg_reset (r : Reg) : State.reset.readReg r = resetValue r := by
  cases r
  case status | errcode | typeProps | crcValue => decide
  all_goals rfl

theorem portRead_word (s : State) (offset : BitVec 7) :
    s.portRead offset .word = (regAt offset).elim 0 s.readReg := by
  cases h : regAt offset <;> simp [State.portRead, accessed, h]

/-- What the host reads at an offset after reset: the reset value of the register there, 0 where there is none. -/
theorem portRead_word_reset (offset : BitVec 7) :
    State.reset.portRead offset .word = (regAt offset).elim 0 resetValue := by
  rw [portRead_word, funext State.readReg_reset]

/-- Settles O5: a read after reset returns the reset value of the register at its offset, and the 32 aligned offsets
are looked up in the register map. -/
theorem resetRegisterValues : Obligations.ResetRegisterValues := by
  refine ⟨?_, rfl, rfl, rfl, rfl⟩
  simp only [portRead_word_reset]
  decide

end Sys2Proof.Machine
end

section
/-! PROOFS. The decoder and the encoder are inverse to each other, the decoder's checks in their order, and the rows of
the opcode map (30_encoding.md rules R301 to R307). -/

namespace Sys2Proof

/-! ### The decoder's checks, one equation per outcome (30_encoding.md rule R306) -/

theorem decode_of_commandOf_none {w : Word} (h : commandOf (Word.opc w) (Word.imm8 w) = none) :
    decode w = .error (.unassignedOpcode (Word.opc w)) := by
  unfold Word.opc Word.imm8 at h
  simp [decode, h, Word.opc]

theorem decode_of_rsv_ne {w : Word} {i : Instr} (h : commandOf (Word.opc w) (Word.imm8 w) = some i)
    (hr : Word.rsv w ≠ 0) : decode w = .error .reservedField := by
  unfold Word.opc Word.imm8 at h
  unfold Word.rsv at hr
  simp only [decode, h]
  rw [if_pos hr]

theorem decode_of_stray_imm8 {w : Word} {i : Instr} (h : commandOf (Word.opc w) (Word.imm8 w) = some i)
    (hr : Word.rsv w = 0) (hi : Word.opc w ≠ 0x02 ∧ Word.imm8 w ≠ 0) : decode w = .error .strayImmediate := by
  unfold Word.opc Word.imm8 at h hi
  unfold Word.rsv at hr
  simp only [decode, h]
  rw [if_neg (not_not.2 hr), if_pos hi]

theorem decode_of_checks {w : Word} {i : Instr} (h : commandOf (Word.opc w) (Word.imm8 w) = some i)
    (hr : Word.rsv w = 0) (hi : Word.opc w = 0x02 ∨ Word.imm8 w = 0) : decode w = .ok i := by
  unfold Word.opc Word.imm8 at h hi
  unfold Word.rsv at hr
  simp only [decode, h]
  rw [if_neg (not_not.2 hr), if_neg (not_and.2 fun hn => not_not.2 (hi.resolve_left hn))]

/-! ### Decoding and encoding -/

theorem commandOf_opcode_immediate (i : Instr) : commandOf i.opcode i.immediate = some i := by
  cases i <;> rfl

/-- Only CRC_BYTE has an immediate (30_encoding.md rule R302). -/
theorem opcode_eq_or_immediate_eq_zero (i : Instr) : i.opcode = 0x02 ∨ i.immediate = 0 := by
  cases i
  case crcByte b => exact .inl rfl
  all_goals exact .inr rfl

theorem decode_encode (i : Instr) : decode (encode i) = .ok i := by
  apply decode_of_checks
  · rw [encode_opc, encode_imm8, commandOf_opcode_immediate]
  · exact encode_rsv i
  · rw [encode_opc, encode_imm8]
    exact opcode_eq_or_immediate_eq_zero i

/-- An accepted word's IMM8 is its command's immediate. -/
theorem decode_immediate {w : Word} {i : Instr} (h : decode w = .ok i) : i.immediate = Word.imm8 w := by
  obtain ⟨hc, -, hi⟩ := decode_ok h
  rw [(commandOf_some hc).2]
  split
  · rfl
  · exact (hi.resolve_left ‹_›).symm

/-- An accepted word is its command's: its three fields are (30_encoding.md rule R301). -/
theorem eq_encode_of_decode {w : Word} {i : Instr} (h : decode w = .ok i) : w = encode i := by
  obtain ⟨-, hr, -⟩ := decode_ok h
  have hopc : i.opcode = Word.opc w := decode_opcode h
  rw [encode, hopc, decode_immediate h, ← hr, Word.eq_fields]

/-- Settles O1: a command's word passes the decoder's checks, and an accepted word has its command's fields. -/
theorem decodeInvertsEncode : Obligations.DecodeInvertsEncode := by
  intro w i
  constructor
  · exact eq_encode_of_decode
  · rintro rfl
    exact decode_encode i

/-- Settles O2: the words of the opcode map are the encoded commands. -/
theorem specWordsDecode : Obligations.SpecWordsDecode :=
  ⟨decode_encode .nop, decode_encode .crcInit, decode_encode (.crcByte 0x72), decode_encode .crcBuf,
    decode_encode .typeCheck, decode_encode .frame, decode_encode .deframe, decode_encode .seqStart,
    decode_encode .seqNext, decode_encode .outStart, decode_encode .sigEmit⟩

/-! ### Illegal words -/

theorem commandOf_eq_none_iff {o : BitVec 8} {b : Byte} :
    commandOf o b = none ↔ assignedOpcodes.contains o = false := by
  rw [← commandOf_isSome o b, Option.isSome_eq_false_iff, Option.isNone_iff_eq_none]

theorem exists_commandOf {o : BitVec 8} (b : Byte) (h : assignedOpcodes.contains o = true) :
    ∃ i, commandOf o b = some i :=
  Option.isSome_iff_exists.1 ((commandOf_isSome o b).trans h)

/-- Settles O3: one equation of the decoder per branch. -/
theorem illegalWordsAreRejectedByName : Obligations.IllegalWordsAreRejectedByName := by
  intro w
  split_ifs with ha hr hi
  · exact decode_of_commandOf_none (commandOf_eq_none_iff.2 ha)
  all_goals obtain ⟨i, hc⟩ := exists_commandOf (Word.imm8 w) (Bool.eq_true_of_not_eq_false ha)
  · exact decode_of_rsv_ne hc hr
  · exact decode_of_stray_imm8 hc (not_not.1 hr) hi
  · have hi' : Word.opc w = 0x02 ∨ Word.imm8 w = 0 := (not_and_or.1 hi).imp not_not.1 not_not.1
    have hd : decode w = .ok i := decode_of_checks hc (not_not.1 hr) hi'
    exact ⟨i, hd, decode_opcode hd, decode_immediate hd⟩

/-! ### The opcode map (30_encoding.md rule R304) -/

/-- What every row of the opcode map says of the fields of a word it selects: OPC is compared with an assigned opcode,
RSV with 0, and IMM8 with 0 in every row but CRC_BYTE's. -/
theorem opcodeTable_fields : ∀ r ∈ opcodeTable,
    Word.opc r.mask = BitVec.allOnes 8 ∧ Word.rsv r.mask = BitVec.allOnes 16 ∧
      (Word.opc r.pattern = 0x02 ∨ Word.imm8 r.mask = BitVec.allOnes 8) ∧
      assignedOpcodes.contains (Word.opc r.pattern) = true ∧ Word.rsv r.pattern = 0 ∧ Word.imm8 r.pattern = 0 := by
  decide

/-- A field all of whose bits the row compares is the pattern's. -/
theorem TableRow.field_of_selects {r : TableRow} {w : Word} (h : r.selects w = true) {start len : Nat}
    (hm : r.mask.extractLsb' start len = BitVec.allOnes len) :
    w.extractLsb' start len = r.pattern.extractLsb' start len := by
  have hp : w &&& r.mask = r.pattern := by simpa [TableRow.selects] using h
  rw [← hp, BitVec.extractLsb'_and, hm, BitVec.and_allOnes]

theorem opc_of_selects {r : TableRow} {w : Word} (hr : r ∈ opcodeTable) (h : r.selects w = true) :
    Word.opc w = Word.opc r.pattern :=
  TableRow.field_of_selects h (opcodeTable_fields r hr).1

/-- A word a row selects is a command: its fields pass the decoder's checks. -/
theorem decode_of_selects {r : TableRow} {w : Word} (hr : r ∈ opcodeTable) (h : r.selects w = true) :
    ∃ i, decode w = .ok i := by
  obtain ⟨-, hrsv, himm, hassigned, hprsv, hpimm⟩ := opcodeTable_fields r hr
  have hopc := opc_of_selects hr h
  obtain ⟨i, hc⟩ := exists_commandOf (Word.imm8 w) (hopc ▸ hassigned)
  refine ⟨i, decode_of_checks hc ?_ (himm.imp (fun hp => ?_) fun hm => ?_)⟩
  · exact (TableRow.field_of_selects h hrsv).trans hprsv
  · exact hopc.trans hp
  · exact (TableRow.field_of_selects h hm).trans hpimm

/-- Every command's word selects one row of the opcode map (30_encoding.md rule R304). -/
theorem wordFields (i : Instr) : Laws.WordFields.Statement i := by
  cases i with
  | nop => exact Laws.WordFields.nop
  | crcInit => exact Laws.WordFields.crcInit
  | crcByte b => exact Laws.WordFields.crcByte b
  | crcBuf => exact Laws.WordFields.crcBuf
  | typeCheck => exact Laws.WordFields.typeCheck
  | frame => exact Laws.WordFields.frame
  | deframe => exact Laws.WordFields.deframe
  | seqStart => exact Laws.WordFields.seqStart
  | seqNext => exact Laws.WordFields.seqNext
  | outStart => exact Laws.WordFields.outStart
  | sigEmit => exact Laws.WordFields.sigEmit

theorem exists_selects_encode (i : Instr) : ∃ r ∈ opcodeTable, r.selects (encode i) = true := by
  obtain ⟨-, hone⟩ := wordFields i
  obtain ⟨r, hr⟩ := List.exists_mem_of_length_pos (hone ▸ Nat.one_pos)
  exact ⟨r, List.mem_filter.1 hr⟩

/-- No two rows have the same OPC, and a word has one. -/
theorem filter_selects_length_le_one (w : Word) : (opcodeTable.filter fun r => r.selects w).length ≤ 1 := by
  have hnodup : (opcodeTable.map fun r => Word.opc r.pattern).Nodup := by decide
  calc (opcodeTable.filter fun r => r.selects w).length
      = opcodeTable.countP fun r => r.selects w := List.countP_eq_length_filter.symm
    _ ≤ opcodeTable.countP fun r => Word.opc r.pattern == Word.opc w :=
        List.countP_mono_left fun r hr h => beq_iff_eq.2 (opc_of_selects hr h).symm
    _ = (opcodeTable.map fun r => Word.opc r.pattern).count (Word.opc w) := by
        rw [List.count, List.countP_map]; rfl
    _ ≤ 1 := List.nodup_iff_count_le_one.1 hnodup _

/-- Settles O4: a row and the decoder read the same fields of a word. -/
theorem opcodeMapSelectsOneRow : Obligations.OpcodeMapSelectsOneRow := by
  refine ⟨filter_selects_length_le_one, fun w => ⟨?_, ?_⟩, fun w i r hd hr h => ?_⟩
  · rintro ⟨i, hd⟩
    rw [eq_encode_of_decode hd]
    exact exists_selects_encode i
  · rintro ⟨r, hr, h⟩
    exact decode_of_selects hr h
  · exact (opc_of_selects hr h).symm.trans (decode_opcode hd).symm

end Sys2Proof
end

section
/-! PROOFS. Frames: what a host step and what a command leave unchanged (10_state.md rule R103, 20_memory.md rules R203,
R206, 42_crc.md rule R606), and the flags a completion sets (40_command.md rule R405). -/

namespace Sys2Proof.Machine

/-! ### Host steps -/

/-- A register write changes no read-only register with storage but, at CMD, the error record (10_state.md rule
R103). -/
theorem portWrite_readOnly (s : State) (offset : BitVec 7) (size : AccessSize) (v : Word) :
    let t := s.portWrite offset size v
    t.seq = s.seq ∧ t.dec = s.dec ∧ t.chunkCrc = s.chunkCrc ∧ t.cur = s.cur ∧ t.chunkIdx = s.chunkIdx ∧
      t.out = s.out ∧ t.config = s.config := by
  rcases portWrite_cases s offset size v with hw | ⟨-, hw⟩ | ⟨-, hw⟩ | ⟨o, hw⟩ | ⟨-, -, hw⟩ | ⟨-, -, hw⟩ <;>
    simp [hw]

/-- Only a write that reaches CMD changes the error record (40_command.md rule R403). -/
theorem portWrite_error_of_not_cmd {offset : BitVec 7} {size : AccessSize} (s : State) (v : Word)
    (h : accessed offset size ≠ some .cmd) : (s.portWrite offset size v).error = s.error := by
  rcases portWrite_cases s offset size v with
    hw | ⟨-, hw⟩ | ⟨-, hw⟩ | ⟨o, hw⟩ | ⟨hcmd, -⟩ | ⟨hcmd, -⟩
  · rw [hw]
  · rw [hw]
  · rw [hw, State.writeStatus_error]
  · rw [hw]
  · exact absurd hcmd h
  · exact absurd hcmd h

/-- A host step is a register write, or it changes the memory, the record and the free-byte counter only. -/
theorem hostStep_next_or {s t : State} {h : HostStep} (hs : hostStep h s = .next t) :
    (∃ o z v, h = .portWrite o z v ∧ t = s.portWrite o z v) ∨
      t = { s with mem := t.mem, observed := t.observed, freeIx := t.freeIx } := by
  rcases hostStep_next hs with ⟨v, rfl⟩ | hw | ⟨a, -, hm⟩ | ⟨a, b, -, hm⟩
  · exact .inr rfl
  · exact .inl hw
  · obtain ⟨-, ⟨-, rfl⟩ | ⟨-, rfl⟩⟩ := hostMemRead_next hm
    · exact .inr rfl
    · exact .inr rfl
  · obtain ⟨-, -, rfl⟩ := hostMemWrite_next hm
    exact .inr rfl

/-- No host step changes a read-only register but the error record (10_state.md rule R103). -/
theorem hostStep_readOnly {s t : State} {h : HostStep} (hs : hostStep h s = .next t) :
    t.seq = s.seq ∧ t.dec = s.dec ∧ t.chunkCrc = s.chunkCrc ∧ t.cur = s.cur ∧ t.chunkIdx = s.chunkIdx ∧
      t.out = s.out ∧ t.config = s.config := by
  rcases hostStep_next_or hs with ⟨o, z, v, -, rfl⟩ | ht
  · exact portWrite_readOnly s o z v
  · rw [ht]
    exact ⟨rfl, rfl, rfl, rfl, rfl, rfl, rfl⟩

/-- No host step but a CMD write changes the error record or LATCH (40_command.md rules R402, R403). -/
theorem hostStep_error_latch {s t : State} {h : HostStep} (hs : hostStep h s = .next t)
    (hcmd : ∀ w, h ≠ .portWrite 0x10 .word w) : t.error = s.error ∧ t.latch = s.latch := by
  rcases hostStep_next_or hs with ⟨o, z, v, rfl, rfl⟩ | ht
  · have hne : accessed o z ≠ some .cmd := by
      intro hc
      obtain ⟨rfl, rfl⟩ := accessed_cmd hc
      exact hcmd v rfl
    exact ⟨portWrite_error_of_not_cmd s v hne, portWrite_latch_of_not_cmd s v hne⟩
  · rw [ht]
    exact ⟨rfl, rfl⟩

theorem step_of_host {s : State} {h : HostStep} (hturn : s.nextTurn = .host h) : step s = hostStep h s.popTurn :=
  step_of_turn hturn

/-- Settles O60: a host step is a register write, which the register map confines, or leaves the registers alone. -/
theorem hostLeavesReadOnlyRegisters : Obligations.HostLeavesReadOnlyRegisters := by
  intro s t h hturn hstep
  rw [step_of_host hturn] at hstep
  obtain ⟨hseq, hdec, hcrc, hcur, hidx, hout, hconfig⟩ := hostStep_readOnly hstep
  exact ⟨hseq, hdec, hcrc, hcur, hidx, hout, hconfig, hostStep_error_latch (s := s.popTurn) hstep⟩

/-! ### Commands -/

/-- Settles O58: recording an error writes none of these registers, and of them a commit writes CRC_STATE only. -/
theorem commandsLeaveHostRegisters : Obligations.CommandsLeaveHostRegisters := by
  intro i s t h
  obtain ⟨l, -, ⟨u, hu, rfl⟩ | ⟨e, -, rfl⟩⟩ := exec_next h
  · obtain ⟨hctrl, -, -, hreject, -, hops, hconfig, hagenda, hobserved, hfree⟩ := ruleOf_ok_keeps hu
    refine ⟨hops, fun hi hb hc => ?_, hctrl, hreject, hconfig, hagenda, hobserved, hfree⟩
    rw [State.succeed_ops, ruleOf_ok_crcState hu hi hb hc]
  · exact ⟨rfl, fun _ _ _ => rfl, rfl, rfl, rfl, rfl, rfl, rfl⟩

/-- Bytes written at the base of a window of their length leave every address outside the window. -/
theorem read_writeBytes_of_not_contains (m : Memory) {p a : Nat} (b : List Byte)
    (h : Window.contains ⟨p, b.length⟩ a = false) : (m.writeBytes p b).read a = m.read a := by
  rw [Bool.eq_false_iff, Ne, Window.contains_iff] at h
  exact Memory.read_writeBytes_outside m b (by simp only at h; omega)

/-- Settles O59: a commit writes the bytes of its output window or none, and recording an error writes none. -/
theorem commandsWriteOnlyTheirOutputWindow : Obligations.CommandsWriteOnlyTheirOutputWindow := by
  intro i s t l hl h
  obtain ⟨l', hl', ⟨u, hu, rfl⟩ | ⟨e, -, rfl⟩⟩ := exec_next h
  · obtain rfl : l' = l := Option.some.inj (hl'.symm.trans hl)
    rcases ruleOf_ok_mem hu with ⟨-, -, hmem⟩ | ⟨b, hwindow, -, hb, hmem, -⟩
    · exact ⟨fun a _ => congrArg (·.read a) hmem, fun _ _ => hmem⟩
    · refine ⟨fun a ha => ?_, fun hf hs => ?_⟩
      · rw [hwindow] at ha
        rw [State.succeed_mem, hmem, read_writeBytes_of_not_contains _ _ ha]
      · have hempty : outputWindow i l' s = Window.empty := by
          cases i
          case frame => exact absurd rfl hf
          case sigEmit => exact absurd rfl hs
          all_goals rfl
        rw [hempty] at hwindow
        exact absurd (congrArg Window.len hwindow) (by simpa [Window.empty] using hb.ne)
  · exact ⟨fun _ _ => rfl, fun _ _ => rfl⟩

/-- Settles O11: a commit leaves ERR and sets DONE, recording an error leaves DONE and sets ERR. -/
theorem completionSetsExactlyOneFlag : Obligations.CompletionSetsExactlyOneFlag := by
  intro i s t hdone herr h
  obtain ⟨l, -, ⟨u, hu, rfl⟩ | ⟨e, -, rfl⟩⟩ := exec_next h
  · obtain ⟨-, -, hu_err, -⟩ := ruleOf_ok_keeps hu
    exact ⟨rfl, by rw [State.succeed_done, State.succeed_err, hu_err, herr]; rfl⟩
  · exact ⟨rfl, hdone⟩

/-! ### The sequencer's registers -/

/-- Only DEFRAME, SEQ_START and SEQ_NEXT commit a register of the sequencer or a decode result (10_state.md rules R120
to R124). -/
theorem ruleOf_ok_keeps_sequencer {i : Instr} {s t : State} {l : Latch} (h : ruleOf i s l = .ok t)
    (hd : i ≠ .deframe) (hs : i ≠ .seqStart) (hn : i ≠ .seqNext) :
    t.seq = s.seq ∧ t.chunkIdx = s.chunkIdx ∧ t.cur = s.cur ∧ t.dec = s.dec := by
  cases i with
  | nop => cases h; simp
  | crcInit => cases h; simp
  | crcByte b => cases h; simp
  | crcBuf => simp [crcBufRule_ok h]
  | typeCheck => simp [typeCheckRule_ok h]
  | frame => simp [frameRule_ok h]
  | deframe => exact absurd rfl hd
  | seqStart => exact absurd rfl hs
  | seqNext => exact absurd rfl hn
  | outStart => simp [outStartRule_ok h]
  | sigEmit => simp [sigEmitRule_ok (l := l) h]

/-- SEQ_STATE and CHUNK_IDX after a commit: SEQ_START's opens the stream, SEQ_NEXT's ends it or leaves it open, and no
other commit changes them (10_state.md rules R124, R129). -/
theorem ruleOf_ok_seq {i : Instr} {s t : State} {l : Latch} (h : ruleOf i s l = .ok t) :
    (i = .seqStart ∧ t.seq = .stream) ∨
      (i = .seqNext ∧ s.seq.isOpen = true ∧ t.seq = if s.cur.rem = 0 then .ended else .stream) ∨
      (i ≠ .seqStart ∧ i ≠ .seqNext ∧ t.seq = s.seq ∧ t.chunkIdx = s.chunkIdx) := by
  cases i
  case deframe =>
    obtain ⟨-, k, -, rfl⟩ := deframeRule_ok h
    simp
  case seqStart => simp [seqStartRule_ok h]
  case seqNext =>
    obtain ⟨hopen, ⟨hrem, rfl⟩ | ⟨hrem, -, k, -, rfl⟩⟩ := seqNextRule_ok (l := l) h
    · exact .inr (.inl ⟨rfl, hopen, (if_pos hrem).symm⟩)
    · exact .inr (.inl ⟨rfl, hopen, (if_neg hrem).symm⟩)
  all_goals
    obtain ⟨hseq, hidx, -⟩ := ruleOf_ok_keeps_sequencer h (by simp) (by simp) (by simp)
    exact .inr (.inr ⟨by simp, by simp, hseq, hidx⟩)

theorem exec_seqStart_seq {s t : State} (hs : s.err = false) (h : exec .seqStart s = .next t) :
    t.seq = if t.err then .failed else .stream := by
  cases ht : t.err with
  | true => exact (exec_seqStart_err hs h ht).1
  | false =>
    obtain ⟨l, -, ⟨u, hu, rfl⟩ | ⟨e, -, rfl⟩⟩ := exec_next h
    · simp [seqStartRule_ok hu]
    · cases ht

/-- Where SEQ_NEXT leaves the sequencer (44_sequencer.md rules R810, R812, R813, R815). -/
theorem exec_seqNext_seq {s t : State} (hs : s.err = false) (h : exec .seqNext s = .next t) :
    t.seq =
      if s.seq = .idle ∨ s.seq = .failed then s.seq
      else if s.cur.rem = 0 then .ended
      else if t.err then .failed else .stream := by
  obtain ⟨l, -, ⟨u, hu, rfl⟩ | ⟨e, he, rfl⟩⟩ := exec_next h
  · obtain ⟨-, -, hu_err, -⟩ := ruleOf_ok_keeps hu
    obtain ⟨hi, -⟩ | ⟨-, hopen, hseq⟩ | ⟨-, hi, -⟩ := ruleOf_ok_seq hu
    · cases hi
    · have hnot : ¬(s.seq = .idle ∨ s.seq = .failed) := fun hclosed => by
        simp [SeqState.isOpen_eq_false_iff.2 hclosed] at hopen
      rw [if_neg hnot, State.succeed_seq, hseq, State.succeed_err, hu_err, hs]
      rfl
    · exact absurd rfl hi
  · rcases seqNextRule_raise (l := l) he with ⟨hclosed, rfl⟩ | ⟨hopen, hrem, c, -, rfl, -⟩
    · rw [if_pos (SeqState.isOpen_eq_false_iff.1 hclosed)]
      rfl
    · have hnot : ¬(s.seq = .idle ∨ s.seq = .failed) := fun hclosed => by
        simp [SeqState.isOpen_eq_false_iff.2 hclosed] at hopen
      rw [if_neg hnot, if_neg hrem]
      rfl

/-- Every command but SEQ_START and SEQ_NEXT leaves SEQ_STATE (10_state.md rule R129). -/
theorem exec_seq_of_ne {i : Instr} {s t : State} (h : exec i s = .next t) (hstart : i ≠ .seqStart)
    (hnext : i ≠ .seqNext) : t.seq = s.seq := by
  obtain ⟨l, -, ⟨u, hu, rfl⟩ | ⟨e, he, rfl⟩⟩ := exec_next h
  · obtain ⟨hi, -⟩ | ⟨hi, -⟩ | ⟨-, -, hseq, -⟩ := ruleOf_ok_seq hu
    · exact absurd hi hstart
    · exact absurd hi hnext
    · exact hseq
  · have hfails : ¬ e.failsSeq = true := fun hf =>
      ((ruleOf_raise_failsSeq he).1 hf).elim hstart fun hn => hnext hn.1
    rw [State.recordError_seq, if_neg hfails]

theorem latch_of_inFlight_fst {s : State} {i : Instr} (h : s.inFlight.map Prod.fst = some i) :
    ∃ l, s.latch = some l ∧ decode l.word = .ok i := by
  obtain ⟨⟨j, l⟩, hj, rfl⟩ := Option.map_eq_some_iff.1 h
  exact ⟨l, inFlight_some hj⟩

/-- On the engine's turn with command i in flight, a step is `exec i` (40_command.md rule R405). -/
theorem step_of_engineMoves_command {s : State} {l : Latch} {i : Instr} (h : s.engineMoves) (hl : s.latch = some l)
    (hi : decode l.word = .ok i) : step s = exec i s.popTurn := by
  rw [step_of_engineMoves h, engineTurn_command (s := s.popTurn) hl hi]

theorem busy_of_latch {s : State} {l : Latch} (hl : s.latch = some l) : s.busy = true := by
  simp [State.busy, hl]

/-- Settles O57: the transitions of SEQ_START and SEQ_NEXT, and that no other turn but reset changes SEQ_STATE. -/
theorem sequencerTransitions : Obligations.SequencerTransitions := by
  intro s t herr hstep
  refine ⟨fun hturn => ?_, fun h hturn => ?_, fun hmoves hi => ?_, fun hmoves hi => ?_, fun hmoves hstart hnext => ?_⟩
  · rw [step_of_turn hturn] at hstep
    cases hstep
    rfl
  · rw [step_of_host hturn] at hstep
    exact (hostStep_readOnly hstep).1
  · obtain ⟨l, hl, hd⟩ := latch_of_inFlight_fst hi
    rw [step_of_engineMoves_command hmoves hl hd] at hstep
    exact exec_seqStart_seq (s := s.popTurn) (herr (busy_of_latch hl)) hstep
  · obtain ⟨l, hl, hd⟩ := latch_of_inFlight_fst hi
    rw [step_of_engineMoves_command hmoves hl hd] at hstep
    exact exec_seqNext_seq (s := s.popTurn) (herr (busy_of_latch hl)) hstep
  · rw [step_of_engineMoves hmoves] at hstep
    obtain ⟨-, rfl⟩ | ⟨l, hl, ⟨i, hd, hexec⟩ | ⟨-, rfl⟩⟩ := engineTurn_next hstep
    · rfl
    · have hi : s.inFlight.map Prod.fst = some i := by rw [inFlight_eq (s := s) hl hd]; rfl
      exact exec_seq_of_ne (s := s.popTurn) hexec (fun he => hstart (he ▸ hi)) fun he => hnext (he ▸ hi)
    · rfl

/-- Settles O9: the engine's turn is the completion of the command in flight, and nothing without one. -/
theorem engineStepRunsTheLatchedCommand : Obligations.EngineStepRunsTheLatchedCommand := by
  constructor
  · intro s l i hmoves hl hi
    exact step_of_engineMoves_command hmoves hl hi
  · intro s hmoves hl
    rw [step_of_engineMoves hmoves, engineTurn_idle (s := s.popTurn) hl]

end Sys2Proof.Machine
end

section
/-! PROOFS. What every step keeps: the cursor and output windows (44_sequencer.md rules R814, R822) and the machine's
invariant (State.Inv). -/

namespace Sys2Proof.Machine

/-! ### Windows of natural numbers in registers -/

theorem toReg_toNat_le (n : Nat) : (toReg n).toNat ≤ n := by
  rw [toReg, BitVec.toNat_ofNat]
  exact Nat.mod_le ..

/-- A chunk decoded from a window in range leaves a remainder in range, and its data and CRC field lie in memory
(43_chunk_codec.md rule R711). -/
theorem decodeChunk_inRange {c : Config} {m : Memory} {a r : Nat} {k : Chunk}
    (hr : inRange c ⟨a, r⟩ = true) (hk : decodeChunk m a r = .ok k) :
    k.next + k.rem ≤ c.memSize ∧ letters4 k.chunkType = true ∧ k.dataAddr + k.len.toNat + 4 ≤ c.memSize := by
  obtain ⟨hlen, hletters, -, rfl⟩ := decodeChunk_ok hk
  have hle : a + r ≤ c.memSize := ((inRange_iff c ⟨a, r⟩).1 hr).resolve_left (by simp only; omega)
  refine ⟨?_, hletters, ?_⟩ <;> simp only <;> omega

/-! ### The registers a commit moves -/

/-- The cursor after a commit is as before, or a window in memory (44_sequencer.md rule R814). -/
theorem ruleOf_ok_cur {i : Instr} {s t : State} {l : Latch} (h : ruleOf i s l = .ok t) :
    t.cur = s.cur ∨ ∃ a n, t.cur = ⟨toReg a, toReg n⟩ ∧ a + n ≤ s.config.memSize := by
  cases i
  case deframe =>
    obtain ⟨hr, k, hk, rfl⟩ := deframeRule_ok h
    exact .inr ⟨_, _, rfl, (decodeChunk_inRange hr hk).1⟩
  case seqStart =>
    obtain ⟨hr, hs, rfl⟩ := seqStartRule_ok h
    have h8 : 8 ≤ l.ops.srcLen.toNat := ((signatureOk_iff _ _).1 hs).1
    have hle : l.ops.srcAddr.toNat + l.ops.srcLen.toNat ≤ s.config.memSize :=
      ((inRange_iff _ _).1 hr).resolve_left (fun h0 : l.ops.srcLen.toNat = 0 => by omega)
    exact .inr ⟨_, _, rfl, by omega⟩
  case seqNext =>
    obtain ⟨-, ⟨-, rfl⟩ | ⟨-, hr, k, hk, rfl⟩⟩ := seqNextRule_ok (l := l) h
    · exact .inl rfl
    · exact .inr ⟨_, _, rfl, (decodeChunk_inRange hr hk).1⟩
  all_goals
    obtain ⟨-, -, hcur, -⟩ := ruleOf_ok_keeps_sequencer h (by simp) (by simp) (by simp)
    exact .inl hcur

/-- The decode results after a commit are as before, or those of a chunk in memory (10_state.md rule R120). -/
theorem ruleOf_ok_dec {i : Instr} {s t : State} {l : Latch} (h : ruleOf i s l = .ok t) :
    t.dec = s.dec ∨ (letters4 t.dec.chunkType = true ∧
      t.dec.dataAddr.toNat + t.dec.len.toNat + 4 ≤ s.config.memSize) := by
  have committed : ∀ {a r : Nat} {k : Chunk}, inRange s.config ⟨a, r⟩ = true → decodeChunk s.mem a r = .ok k →
      letters4 k.chunkType = true ∧ (toReg k.dataAddr).toNat + k.len.toNat + 4 ≤ s.config.memSize := by
    intro a r k hr hk
    obtain ⟨-, hletters, hdata⟩ := decodeChunk_inRange hr hk
    have := toReg_toNat_le k.dataAddr
    exact ⟨hletters, by omega⟩
  cases i
  case deframe =>
    obtain ⟨hr, k, hk, rfl⟩ := deframeRule_ok h
    exact .inr (committed hr hk)
  case seqStart => simp [seqStartRule_ok h]
  case seqNext =>
    obtain ⟨-, ⟨-, rfl⟩ | ⟨-, hr, k, hk, rfl⟩⟩ := seqNextRule_ok (l := l) h
    · exact .inl rfl
    · exact .inr (committed hr hk)
  all_goals
    obtain ⟨-, -, -, hdec⟩ := ruleOf_ok_keeps_sequencer h (by simp) (by simp) (by simp)
    exact .inl hdec

/-- The output cursor after a commit is as before, OUT_START's checked window, or moved by bytes there was room for
(44_sequencer.md rules R820 to R822). -/
theorem ruleOf_ok_out {i : Instr} {s t : State} {l : Latch} (h : ruleOf i s l = .ok t) :
    t.out = s.out ∨
      (inRange s.config l.ops.destination = true ∧ t.out = ⟨l.ops.dstAddr, l.ops.dstCap, 0⟩) ∨
      ∃ n, n ≤ s.out.rem.toNat ∧ t.out = ⟨s.out.ptr + toReg n, s.out.rem - toReg n, s.out.count + toReg n⟩ := by
  cases i with
  | nop => cases h; simp
  | crcInit => cases h; simp
  | crcByte b => cases h; simp
  | crcBuf => simp [crcBufRule_ok h]
  | typeCheck => simp [typeCheckRule_ok h]
  | frame =>
    obtain ⟨hc, -, rfl⟩ := frameRule_ok h
    obtain ⟨-, -, hroom⟩ := frameCheck_eq_none.1 hc
    exact .inr (.inr ⟨_, by simpa [frameSize] using hroom, rfl⟩)
  | deframe =>
    obtain ⟨-, k, -, rfl⟩ := deframeRule_ok h
    simp
  | seqStart => simp [seqStartRule_ok h]
  | seqNext =>
    obtain ⟨-, ⟨-, rfl⟩ | ⟨-, -, k, -, rfl⟩⟩ := seqNextRule_ok (l := l) h <;> simp
  | outStart =>
    obtain ⟨hr, rfl⟩ := outStartRule_ok h
    exact .inr (.inl ⟨hr, rfl⟩)
  | sigEmit =>
    obtain ⟨hroom, rfl⟩ := sigEmitRule_ok (l := l) h
    exact .inr (.inr ⟨_, hroom, rfl⟩)

/-! ### An invariant is kept by every step when each agent's turn keeps it -/

/-- The cases of an invariant: taking a turn, a host step, a commit, a recorded error of the command in flight or of an
Illegal word, and reset. -/
structure KeptByEachAgent (P : State → Prop) : Prop where
  popTurn : ∀ s, P s → P s.popTurn
  host : ∀ s t h, P s → hostStep h s = .next t → P t
  commit : ∀ i s t l, P s → s.latch = some l → ruleOf i s l = .ok t → P t.succeed
  error : ∀ i s l e, P s → s.latch = some l → decode l.word = .ok i → ruleOf i s l = .raise e →
    P (s.recordError l.word e)
  illegal : ∀ s l, P s → s.latch = some l → P (s.recordError l.word { code := .illegalCommand, addr := 0 })
  reset : ∀ s, P s → P s.doReset

theorem KeptByEachAgent.engineTurn {P : State → Prop} (hP : KeptByEachAgent P) {s t : State} (hs : P s)
    (h : engineTurn s = .next t) : P t := by
  obtain ⟨-, rfl⟩ | ⟨l, hl, ⟨i, hd, hexec⟩ | ⟨-, rfl⟩⟩ := engineTurn_next h
  · exact hs
  · obtain ⟨l', hl', ⟨u, hu, rfl⟩ | ⟨e, he, rfl⟩⟩ := exec_next hexec
    · exact hP.commit i s u l' hs hl' hu
    · obtain rfl : l = l' := Option.some.inj (hl.symm.trans hl')
      exact hP.error i s l e hs hl hd he
  · exact hP.illegal s l hs hl

theorem KeptByEachAgent.step {P : State → Prop} (hP : KeptByEachAgent P) {s t : State} (hs : P s)
    (h : step s = .next t) : P t := by
  have hpop : P s.popTurn := hP.popTurn s hs
  obtain ⟨-, hengine⟩ | ⟨a, -, hhost⟩ | ⟨-, rfl⟩ := step_next h
  · exact hP.engineTurn hpop hengine
  · exact hP.host _ _ _ hpop hhost
  · exact hP.reset _ hpop

/-! ### The cursor window -/

theorem cursorInv_commit {i : Instr} {s t : State} {l : Latch} (hs : s.CursorInv) (h : ruleOf i s l = .ok t) :
    t.CursorInv := by
  obtain ⟨-, -, -, -, -, -, hconfig, -⟩ := ruleOf_ok_keeps h
  unfold State.CursorInv
  rw [hconfig]
  obtain hcur | ⟨a, n, hcur, hle⟩ := ruleOf_ok_cur h
  · rwa [hcur]
  · have ha := toReg_toNat_le a
    have hn := toReg_toNat_le n
    rw [hcur]
    exact .inr (by simp only; omega)

theorem cursorInv_kept : KeptByEachAgent State.CursorInv where
  popTurn _ hs := hs
  host s t h hs ht := by
    obtain ⟨-, -, -, hcur, -, -, hconfig⟩ := hostStep_readOnly ht
    unfold State.CursorInv
    rwa [hcur, hconfig]
  commit i s t l hs _ ht := cursorInv_commit (t := t) hs ht
  error _ _ _ _ hs _ _ _ := hs
  illegal _ _ hs _ := hs
  reset _ _ := .inl rfl

/-- Where the cursor window is in memory, SEQ_NEXT's range check passes, so its errors are SEQUENCE_ERROR and the chunk
decoder's (44_sequencer.md rule R814). -/
theorem seqNextRule_raise_ne_busError {s : State} {l : Latch} {e : CmdError} (hs : s.CursorInv)
    (h : seqNextRule s l = .raise e) : e.code ≠ .busError := by
  rcases seqNextRule_raise h with ⟨-, rfl⟩ | ⟨-, -, c, -, rfl, hrange | hchunk⟩
  · simp
  · have hin : inRange s.config s.cur.window = true := inRange_words hs
    simp [hin] at hrange
  · rcases decodeChunk_error hchunk with rfl | rfl | rfl <;> simp [chunkErrorAt]

/-- Settles O54: every commit that moves the cursor has checked the window it came from. -/
theorem cursorStaysInCheckedWindow : Obligations.CursorStaysInCheckedWindow := by
  refine ⟨.inl rfl, fun s t hs h => cursorInv_kept.step hs h, fun s t hs h herr hfail => ?_⟩
  obtain ⟨l, e, he, rfl⟩ := exec_next_err herr h hfail
  exact seqNextRule_raise_ne_busError (l := l) hs he

/-! ### The output window -/

/-- Bytes there is room for lie in memory (44_sequencer.md rule R822). -/
theorem State.OutputInv.le_memSize {s : State} (hs : s.OutputInv) {n : Nat} (hn : n ≤ s.out.rem.toNat) (h0 : 0 < n) :
    s.out.ptr.toNat + s.out.rem.toNat ≤ s.config.memSize := by
  refine hs.resolve_left fun hrem => ?_
  rw [hrem] at hn
  exact absurd h0 (Nat.not_lt.2 hn)

/-- The output cursor moved by n bytes there was room for, on naturals (43_chunk_codec.md rule R702). -/
theorem toNat_sub_toReg {w : Word} {n : Nat} (h : n ≤ w.toNat) : (w - toReg n).toNat = w.toNat - n := by
  have := w.isLt
  rw [toReg, BitVec.toNat_sub, BitVec.toNat_ofNat]
  omega

theorem toNat_add_toReg_le (w : Word) (n : Nat) : (w + toReg n).toNat ≤ w.toNat + n := by
  have := toReg_toNat_le n
  rw [BitVec.toNat_add]
  exact (Nat.mod_le ..).trans (by omega)

theorem outputInv_commit {i : Instr} {s t : State} {l : Latch} (hs : s.OutputInv) (h : ruleOf i s l = .ok t) :
    t.OutputInv := by
  obtain ⟨-, -, -, -, -, -, hconfig, -⟩ := ruleOf_ok_keeps h
  unfold State.OutputInv
  rw [hconfig]
  obtain hout | ⟨hr, hout⟩ | ⟨n, hn, hout⟩ := ruleOf_ok_out h
  · rwa [hout]
  · rw [hout]
    refine ((inRange_iff _ _).1 hr).imp_left fun h0 => BitVec.eq_of_toNat_eq h0
  · rw [hout]
    have hptr := toNat_add_toReg_le s.out.ptr n
    have hrem := toNat_sub_toReg hn
    rcases hs with h0 | hle
    · rw [h0] at hn hrem
      exact .inl (BitVec.eq_of_toNat_eq (by rw [h0, hrem]; simp))
    · exact .inr (by simp only; omega)

theorem outputInv_kept : KeptByEachAgent State.OutputInv where
  popTurn _ hs := hs
  host s t h hs ht := by
    obtain ⟨-, -, -, -, -, hout, hconfig⟩ := hostStep_readOnly ht
    unfold State.OutputInv
    rwa [hout, hconfig]
  commit i s t l hs _ ht := outputInv_commit (t := t) hs ht
  error _ _ _ _ hs _ _ _ := hs
  illegal _ _ hs _ := hs
  reset _ _ := .inl rfl

/-- A command that answers with ERR = 0 has committed. -/
theorem exec_next_ok {i : Instr} {s t : State} {l : Latch} (hl : s.latch = some l) (h : exec i s = .next t)
    (ht : t.err = false) : ∃ u, ruleOf i s l = .ok u ∧ t = u.succeed := by
  obtain ⟨l', hl', hu | ⟨e, -, rfl⟩⟩ := exec_next h
  · obtain rfl : l' = l := Option.some.inj (hl'.symm.trans hl)
    exact hu
  · cases ht

/-- The output window of a successful command that has one lies in OUT_REM bytes at OUT_PTR (44_sequencer.md rule
R822). -/
theorem outputWindow_of_ok {i : Instr} {s t : State} {l : Latch} {a : Nat} (h : ruleOf i s l = .ok t)
    (ha : (outputWindow i l s).contains a = true) :
    ∃ n, 0 < n ∧ n ≤ s.out.rem.toNat ∧ s.out.ptr.toNat ≤ a ∧ a < s.out.ptr.toNat + n := by
  rcases ruleOf_ok_mem h with ⟨hf, hs, -⟩ | ⟨b, hwindow, hb, h0, -, -⟩
  · cases i
    case frame => exact absurd rfl hf
    case sigEmit => exact absurd rfl hs
    all_goals simp [outputWindow] at ha
  · rw [hwindow, Window.contains_iff] at ha
    exact ⟨b.length, h0, hb, ha⟩

/-- Settles O55: OUT_START has checked the window, and every commit that writes moves within it. -/
theorem outputStaysInCheckedWindow : Obligations.OutputStaysInCheckedWindow := by
  refine ⟨.inl rfl, fun s t hs h => outputInv_kept.step hs h, fun i s t l a hs hl _ h ht ha => ?_⟩
  obtain ⟨u, hu, -⟩ := exec_next_ok hl h ht
  obtain ⟨n, h0, hn, hlo, hhi⟩ := outputWindow_of_ok hu ha
  have hle := hs.le_memSize hn h0
  omega

/-! ### The machine's invariant -/

/-- Bytes written below MEM_SIZE keep the memory canonical and below MEM_SIZE (20_memory.md rules R201, R206). -/
theorem memoryInv_writeBytes {s t : State} {a : Nat} {b : List Byte} (hs : s.MemoryInv)
    (hb : b = [] ∨ a + b.length ≤ s.config.memSize) (hmem : t.mem = s.mem.writeBytes a b)
    (hconfig : t.config = s.config) : t.MemoryInv := by
  obtain ⟨hwf, hcells⟩ := hs
  unfold State.MemoryInv
  rw [hmem, hconfig]
  refine ⟨Memory.wf_writeBytes hwf a b, fun c hc => ?_⟩
  rcases Memory.mem_writeBytes hc with hin | hold
  · rcases hb with rfl | hb
    · simp only [List.length_nil] at hin
      omega
    · omega
  · exact hcells c hold

/-- The window a reset leaves open is empty, or the output window of a FRAME or SIG_EMIT in flight that passes its
checks (70_reset_and_hazards.md rule R1003). -/
theorem abandonedWindow_cases (s : State) :
    s.abandonedWindow = Window.empty ∨
      ∃ i l, s.inFlight = some (i, l) ∧ s.abandonedWindow = outputWindow i l s ∧
        ((i = .frame ∧ frameCheck s l = none) ∨ (i = .sigEmit ∧ sigEmitCheck s = none)) := by
  unfold State.abandonedWindow
  split
  · split
    · exact .inr ⟨_, _, ‹_›, rfl, .inl ⟨rfl, Option.isNone_iff_eq_none.1 ‹_›⟩⟩
    · exact .inl rfl
  · split
    · exact .inr ⟨_, _, ‹_›, rfl, .inr ⟨rfl, Option.isNone_iff_eq_none.1 ‹_›⟩⟩
    · exact .inl rfl
  · exact .inl rfl

/-- The window a reset leaves open lies in the output window there is room for. -/
theorem abandonedWindow_room (s : State) :
    s.abandonedWindow = Window.empty ∨
      ∃ n, 0 < n ∧ n ≤ s.out.rem.toNat ∧ s.abandonedWindow = ⟨s.out.ptr.toNat, n⟩ := by
  rcases abandonedWindow_cases s with hempty | ⟨i, l, -, hwindow, ⟨rfl, hc⟩ | ⟨rfl, hc⟩⟩
  · exact .inl hempty
  · obtain ⟨-, -, hroom⟩ := frameCheck_eq_none.1 hc
    exact .inr ⟨frameSize l.ops, by simp only [frameSize]; omega, hroom, hwindow⟩
  · exact .inr ⟨8, by decide, sigEmitCheck_eq_none.1 hc, hwindow⟩

theorem memoryInv_reset {s : State} (hs : s.MemoryInv) (ho : s.OutputInv) : s.doReset.MemoryInv := by
  refine memoryInv_writeBytes hs ?_ (State.doReset_mem s) (State.doReset_config s)
  rcases abandonedWindow_room s with hempty | ⟨n, h0, hn, hwindow⟩
  · exact .inl (by rw [hempty]; rfl)
  · have hle := ho.le_memSize hn h0
    exact .inr (by rw [hwindow, freeBytes_length]; simp only; omega)

theorem memoryInv_commit {i : Instr} {s t : State} {l : Latch} (hs : s.MemoryInv) (ho : s.OutputInv)
    (h : ruleOf i s l = .ok t) : t.MemoryInv := by
  obtain ⟨-, -, -, -, -, -, hconfig, -⟩ := ruleOf_ok_keeps h
  rcases ruleOf_ok_mem h with ⟨-, -, hmem⟩ | ⟨b, -, hb, h0, hmem, -⟩
  · exact memoryInv_writeBytes (a := 0) (b := []) hs (.inl rfl) hmem hconfig
  · have hle := ho.le_memSize hb h0
    exact memoryInv_writeBytes hs (.inr (by omega)) hmem hconfig

/-- OUT_COUNT does not wrap in a commit (10_state.md rule R127). -/
theorem outCount_commit {i : Instr} {s t : State} {l : Latch} (hs : s.out.count.toNat + s.out.rem.toNat < 2 ^ 32)
    (h : ruleOf i s l = .ok t) : t.out.count.toNat + t.out.rem.toNat < 2 ^ 32 := by
  obtain hout | ⟨-, hout⟩ | ⟨n, hn, hout⟩ := ruleOf_ok_out h
  · rwa [hout]
  · rw [hout]
    simpa using l.ops.dstCap.isLt
  · have hcount := toNat_add_toReg_le s.out.count n
    have hrem := toNat_sub_toReg hn
    rw [hout]
    simp only
    omega

theorem idleIndex_commit {i : Instr} {s t : State} {l : Latch} (hs : s.seq = .idle → s.chunkIdx = 0)
    (h : ruleOf i s l = .ok t) (ht : t.seq = .idle) : t.chunkIdx = 0 := by
  obtain ⟨-, hseq⟩ | ⟨-, -, hseq⟩ | ⟨-, -, hseq, hidx⟩ := ruleOf_ok_seq h
  · simp [hseq] at ht
  · rw [hseq] at ht
    split at ht <;> cases ht
  · rw [hidx]
    exact hs (hseq ▸ ht)

theorem decoded_commit {i : Instr} {s t : State} {l : Latch} (hs : s.Inv) (h : ruleOf i s l = .ok t) :
    t.dec = ⟨0, 0, 0, 0⟩ ∨
      (letters4 t.dec.chunkType = true ∧ t.dec.dataAddr.toNat + t.dec.len.toNat + 4 ≤ t.config.memSize) := by
  obtain ⟨-, -, -, -, -, -, hconfig, -⟩ := ruleOf_ok_keeps h
  rw [hconfig]
  obtain hdec | hdec := ruleOf_ok_dec h
  · rw [hdec]
    exact hs.decoded
  · exact .inr hdec

/-- A commit leaves the flags and the error record of a BUSY state, clear, and sets DONE. -/
theorem inv_commit {i : Instr} {s t : State} {l : Latch} (hs : s.Inv) (hl : s.latch = some l)
    (h : ruleOf i s l = .ok t) : t.succeed.Inv := by
  obtain ⟨-, -, herr, -, herror, -⟩ := ruleOf_ok_keeps h
  obtain ⟨-, hs_err, hs_clear⟩ := hs.inFlightClear (busy_of_latch hl)
  have ht_err : t.err = false := herr.trans hs_err
  have ht_clear : t.error = ErrorRecord.clear := herror.trans hs_clear
  exact {
    memory := memoryInv_commit (t := t) hs.memory hs.output h
    cursor := cursorInv_commit (t := t) hs.cursor h
    output := outputInv_commit (t := t) hs.output h
    outCount := outCount_commit (t := t) hs.outCount h
    doneOrErr := by simp [ht_err]
    inFlightClear := by simp [State.busy]
    errHasCode := by simp [ht_err]
    idxOnlyInSeq := by simp [ht_clear, ErrorRecord.clear]
    inSeqOfSeqNext := by simp [ht_clear, ErrorRecord.clear]
    idleIndex := idleIndex_commit (t := t) hs.idleIndex h
    decoded := decoded_commit (t := t) hs h }

/-- Recording an error keeps the invariant when its code is not NONE and IN_SEQ is set only by a word of SEQ_NEXT and
with the sequence failed (60_exceptions.md rules R904, R905). -/
theorem inv_recordError {s : State} {l : Latch} {e : CmdError} (hs : s.Inv) (hl : s.latch = some l)
    (hcode : e.code ≠ .none) (hseq : e.inSeq = true → l.word.extractLsb' 24 8 = 0x21 ∧ e.failsSeq = true) :
    (s.recordError l.word e).Inv := by
  obtain ⟨hs_done, -, -⟩ := hs.inFlightClear (busy_of_latch hl)
  exact { hs with
    doneOrErr := by simp [hs_done]
    inFlightClear := by simp [State.busy]
    errHasCode := fun _ => hcode
    idxOnlyInSeq := fun h => if_neg (by simpa using h)
    inSeqOfSeqNext := fun h => by
      obtain ⟨hopc, hfails⟩ := hseq h
      exact ⟨hopc, if_pos hfails⟩
    idleIndex := fun h => by
      rw [State.recordError_seq] at h
      split at h
      · cases h
      · exact hs.idleIndex h }

/-- An error of the command in flight has the opcode of its word, so IN_SEQ comes with SEQ_NEXT's. -/
theorem inv_error {i : Instr} {s : State} {l : Latch} {e : CmdError} (hs : s.Inv) (hl : s.latch = some l)
    (hd : decode l.word = .ok i) (he : ruleOf i s l = .raise e) : (s.recordError l.word e).Inv := by
  obtain ⟨hcode, hinSeq, -⟩ := ruleOf_raise he
  refine inv_recordError hs hl hcode fun hin => ?_
  obtain ⟨rfl, hfails⟩ := hinSeq hin
  exact ⟨(decode_opcode hd).symm, hfails⟩

theorem inv_accept {s : State} (hs : s.Inv) (w : Word) : (s.accept w).Inv :=
  { hs with
    doneOrErr := rfl
    inFlightClear := fun _ => ⟨rfl, rfl, rfl⟩
    errHasCode := fun h => by cases h
    idxOnlyInSeq := fun _ => rfl
    inSeqOfSeqNext := fun h => by cases h }

theorem inv_writeStatus {s : State} (hs : s.Inv) (v : Word) : (s.writeStatus v).Inv :=
  { hs with
    doneOrErr := by
      have := hs.doneOrErr
      rw [Bool.and_eq_false_iff] at this
      rcases this with h | h <;> simp [h]
    inFlightClear := fun hb => by
      obtain ⟨hdone, herr, herror⟩ := hs.inFlightClear hb
      exact ⟨by simp [hdone], by simp [herr], herror⟩
    errHasCode := fun h => hs.errHasCode (Bool.and_eq_true_iff.1 h).1 }

theorem inv_portWrite {s : State} (hs : s.Inv) (offset : BitVec 7) (size : AccessSize) (v : Word) :
    (s.portWrite offset size v).Inv := by
  rcases portWrite_cases s offset size v with hw | ⟨-, hw⟩ | ⟨-, hw⟩ | ⟨o, hw⟩ | ⟨-, -, hw⟩ | ⟨-, -, hw⟩ <;> rw [hw]
  · exact hs
  · exact { hs with }
  · exact inv_writeStatus hs v
  · exact { hs with }
  · exact inv_accept hs v
  · exact { hs with }

theorem inv_hostStep {s t : State} {h : HostStep} (hs : s.Inv) (ht : hostStep h s = .next t) : t.Inv := by
  rcases hostStep_next ht with ⟨v, rfl⟩ | ⟨o, z, v, -, rfl⟩ | ⟨a, -, hm⟩ | ⟨a, b, -, hm⟩
  · exact { hs with }
  · exact inv_portWrite hs o z v
  · obtain ⟨-, ⟨-, rfl⟩ | ⟨-, rfl⟩⟩ := hostMemRead_next hm
    · exact { hs with }
    · exact { hs with }
  · obtain ⟨ha, -, rfl⟩ := hostMemWrite_next hm
    exact { hs with memory := memoryInv_writeBytes (b := [b]) hs.memory (.inr ha) rfl rfl }

/-- The registers of reset meet the invariant in any machine whose memory does. -/
theorem inv_of_reset_registers {s : State} (hmem : s.MemoryInv) (hs : s = { State.reset with
    mem := s.mem, config := s.config, agenda := s.agenda, observed := s.observed, freeIx := s.freeIx }) : s.Inv := by
  rw [hs] at hmem ⊢
  exact {
    memory := hmem
    cursor := .inl rfl
    output := .inl rfl
    outCount := Nat.two_pow_pos 32
    doneOrErr := rfl
    inFlightClear := fun h => by cases h
    errHasCode := fun h => by cases h
    idxOnlyInSeq := fun _ => rfl
    inSeqOfSeqNext := fun h => by cases h
    idleIndex := fun _ => rfl
    decoded := .inl rfl }

/-- Settles O6: nothing is written and every register has its reset value. -/
theorem resetMeetsTheInvariant : Obligations.ResetMeetsTheInvariant :=
  inv_of_reset_registers ⟨Memory.wf_reset, fun _ h => by cases h⟩ rfl

theorem inv_kept : KeptByEachAgent State.Inv where
  popTurn _ hs := { hs with }
  host _ _ _ hs ht := inv_hostStep hs ht
  commit _ _ _ _ hs hl ht := inv_commit hs hl ht
  error _ _ _ _ hs hl hd he := inv_error hs hl hd he
  illegal _ _ hs hl := inv_recordError hs hl (by simp) fun h => by cases h
  reset _ hs := inv_of_reset_registers (memoryInv_reset hs.memory hs.output) rfl

/-- Settles O56: each agent's turn keeps the invariant. -/
theorem everyStepKeepsTheInvariant : Obligations.EveryStepKeepsTheInvariant :=
  fun _ _ hs h => inv_kept.step hs h

end Sys2Proof.Machine
end

section
/-! PROOFS. What each command answers: the CRC generator (42_crc.md rules R610 to R612), the type validator
(41_chunk_type.md rule R510), the sequencer (44_sequencer.md rules R801 to R821), and BUS_ERROR (20_memory.md rule
R205). -/

namespace Sys2Proof.Machine

/-! ### NOP and the CRC generator -/

/-- Settles O31: NOP commits nothing. -/
theorem nopCompletes : Obligations.NopCompletes := by
  intro s l hl
  exact exec_ok (i := .nop) hl rfl

/-- Settles O32: CRC_INIT commits CRC_STATE. -/
theorem crcInitCompletes : Obligations.CrcInitCompletes := by
  intro s l hl
  exact exec_ok (i := .crcInit) hl rfl

/-- Settles O33: CRC_BYTE commits CRC_STATE. -/
theorem crcByteCompletes : Obligations.CrcByteCompletes := by
  intro s l b hl
  exact exec_ok (i := .crcByte b) hl rfl

theorem crcBufRule_inRange {s : State} {l : Latch} (hr : inRange s.config l.ops.source = true) :
    crcBufRule s l =
      .ok (s.setCrcState (fold l.ops.crcState (s.mem.readBytes l.ops.srcAddr.toNat l.ops.srcLen.toNat))) := by
  simp [crcBufRule, hr]

/-- Settles O34: in range, CRC_BUF commits the fold of the window's bytes. -/
theorem crcBufCompletes : Obligations.CrcBufCompletes := by
  intro s l hl hwindow
  rw [dataAt_eq, ← fold_eq_foldl]
  exact exec_ok (i := .crcBuf) hl (crcBufRule_inRange (inRange_words hwindow))

/-! ### A window out of range -/

theorem crcBufRule_busError {s : State} {l : Latch} (hr : inRange s.config l.ops.source = false) :
    crcBufRule s l = .raise (busErrorAt l.ops.srcAddr) := by
  simp [crcBufRule, hr]

theorem deframeRule_busError {s : State} {l : Latch} (hr : inRange s.config l.ops.source = false) :
    deframeRule s l = .raise (busErrorAt l.ops.srcAddr) := by
  simp [deframeRule, hr]

theorem seqStartRule_busError {s : State} {l : Latch} (hr : inRange s.config l.ops.source = false) :
    seqStartRule s l = .raise { busErrorAt l.ops.srcAddr with failsSeq := true } := by
  simp [seqStartRule, hr]

theorem outStartRule_busError {s : State} {l : Latch} (hr : inRange s.config l.ops.destination = false) :
    outStartRule s l = .raise (busErrorAt l.ops.dstAddr) := by
  simp [outStartRule, hr]

/-- FRAME raises what its checks find (43_chunk_codec.md rule R702). -/
theorem frameRule_of_check {s : State} {l : Latch} {e : CmdError} (hc : frameCheck s l = some e) :
    frameRule s l = .raise e := by
  simp [frameRule, hc]

theorem frameCheck_busError {s : State} {l : Latch} (ht : letters4 l.ops.chunkType = true)
    (hr : inRange s.config l.ops.source = false) : frameCheck s l = some (busErrorAt l.ops.srcAddr) := by
  simp [frameCheck, ht, hr]

/-- Settles O35: the range check is the first of each command but FRAME, whose type check comes before it. -/
theorem windowOutOfRangeIsBusError : Obligations.WindowOutOfRangeIsBusError := by
  intro s l hl
  refine ⟨fun h0 hlt => ?_, fun h0 hlt => ?_⟩
  · have hr : inRange s.config l.ops.source = false := not_inRange_words h0 hlt
    refine ⟨?_, exec_raise (i := .seqStart) hl (seqStartRule_busError hr)⟩
    rintro i (rfl | rfl | ⟨rfl, ht⟩)
    · exact exec_raise (i := .crcBuf) hl (crcBufRule_busError hr)
    · exact exec_raise (i := .deframe) hl (deframeRule_busError hr)
    · exact exec_raise (i := .frame) hl (frameRule_of_check (frameCheck_busError ht hr))
  · have hr : inRange s.config l.ops.destination = false := not_inRange_words h0 hlt
    exact exec_raise (i := .outStart) hl (outStartRule_busError hr)

/-! ### TYPE_CHECK -/

theorem typeCheckRule_letters {s : State} {l : Latch} (ht : letters4 l.ops.chunkType = true) :
    typeCheckRule s l = .ok s := by
  simp [typeCheckRule, ht]

theorem typeCheckRule_noLetters {s : State} {l : Latch} (ht : letters4 l.ops.chunkType = false) :
    typeCheckRule s l = .raise { code := .invalidChunkType, addr := 0 } := by
  simp [typeCheckRule, ht]

/-- Settles O37: the two outcomes of the letter check. -/
theorem typeCheckOutcomes : Obligations.TypeCheckOutcomes := by
  intro s l hl
  constructor
  · intro ht
    exact exec_ok (i := .typeCheck) hl (typeCheckRule_letters ht)
  · intro ht
    exact exec_raise (i := .typeCheck) hl (typeCheckRule_noLetters ht)

/-! ### The sequencer -/

theorem seqStartRule_signature {s : State} {l : Latch} (hr : inRange s.config l.ops.source = true)
    (hs : signatureOk s.mem l.ops.source = true) :
    seqStartRule s l = .ok { s with
      cur := ⟨toReg (l.ops.srcAddr.toNat + 8), toReg (l.ops.srcLen.toNat - 8)⟩
      chunkIdx := 0
      seq := .stream } := by
  simp [seqStartRule, hr, hs]

/-- Settles O46: both checks of SEQ_START pass. -/
theorem seqStartCompletes : Obligations.SeqStartCompletes := by
  intro s l hl hwindow h8 hsig
  have hs : signatureOk s.mem l.ops.source = true := (signatureOk_iff _ _).2 ⟨h8, hsig⟩
  exact exec_ok (i := .seqStart) hl (seqStartRule_signature (inRange_words (.inr hwindow)) hs)

/-- Settles O50: the stream is open, the cursor window is in range and its chunk decodes. -/
theorem seqNextDecodesChunk : Obligations.SeqNextDecodesChunk := by
  intro s l hl hq hwindow hchunk
  have hrem : s.cur.rem ≠ 0 := by
    intro h0
    obtain ⟨hlen, -⟩ := hchunk
    simp [h0] at hlen
  have hrule := seqNextRule_decode l (SeqState.isOpen_iff.2 hq) hrem (inRange_words (.inr hwindow))
  rw [decodeChunk_good hchunk] at hrule
  exact exec_ok (i := .seqNext) hl hrule

theorem outStartRule_inRange {s : State} {l : Latch} (hr : inRange s.config l.ops.destination = true) :
    outStartRule s l = .ok { s with out := ⟨l.ops.dstAddr, l.ops.dstCap, 0⟩ } := by
  simp [outStartRule, hr]

/-- Settles O52: in range, OUT_START commits the window. -/
theorem outStartCompletes : Obligations.OutStartCompletes := by
  intro s l hl hwindow
  exact exec_ok (i := .outStart) hl (outStartRule_inRange (inRange_words hwindow))

/-! ### SIG_EMIT -/

theorem dataAt_writeBytes_self (m : Memory) (a : Nat) (b : List Byte) :
    dataAt (m.writeBytes a b) a b.length = b := by
  simpa using dataAt_writeBytes m a [] b []

theorem sigEmitRule_room {s : State} (l : Latch) (h : 8 ≤ s.out.rem.toNat) : sigEmitRule s l = .ok (s.emit sig) := by
  simp [sigEmitRule, sigEmitCheck_eq_none.2 h]

theorem sigEmitRule_overflow {s : State} (l : Latch) (h : s.out.rem.toNat < 8) :
    sigEmitRule s l = .raise { code := .dstOverflow, addr := s.out.ptr } := by
  simp [sigEmitRule, sigEmitCheck, h]

/-- Settles O53: the signature is emitted where it fits, and nothing where it does not. -/
theorem sigEmitOutcomes : Obligations.SigEmitOutcomes := by
  intro s l hl
  refine ⟨fun h8 => ?_, fun h8 => exec_raise (i := .sigEmit) hl (sigEmitRule_overflow l h8)⟩
  refine ⟨_, exec_ok (i := .sigEmit) hl (sigEmitRule_room l h8), ?_, ?_, fun a ha => ?_⟩
  · have hout := emit_out_toNat (b := sig) h8
    exact congrArg (fun o => { (s.emit sig).succeed with out := o }) hout
  · exact dataAt_writeBytes_self s.mem s.out.ptr.toNat sig
  · exact Memory.read_writeBytes_outside s.mem sig ha

end Sys2Proof.Machine
end

section
/-! PROOFS. The chunk codec: FRAME writes a chunk, DEFRAME of a good chunk commits its fields (43_chunk_codec.md rules
R702, R711, R720). -/

namespace Sys2Proof.Machine

/-! ### The bytes of a chunk -/

/-- The bytes of a chunk stand at `a` exactly when its four fields stand there (20_memory.md rule R210). -/
theorem dataAt_eq_chunkBytes_iff {m : Memory} {a : Nat} {len ty : Word} {d : List Byte} :
    dataAt m a (12 + d.length) = chunkBytes len ty d ↔
      dataAt m a 4 = bytesBe32 len ∧ dataAt m (a + 4) 4 = bytesBe32 ty ∧ dataAt m (a + 8) d.length = d ∧
        dataAt m (a + 8 + d.length) 4 = bytesBe32 (codecCrc ty d) := by
  have hsplit : dataAt m a (12 + d.length) =
      dataAt m a 4 ++ dataAt m (a + 4) 4 ++ dataAt m (a + 8) d.length ++ dataAt m (a + 8 + d.length) 4 := by
    rw [show 12 + d.length = 4 + 4 + d.length + 4 by omega, dataAt_append, dataAt_append, dataAt_append]
    simp only [Nat.add_assoc, Nat.reduceAdd]
  rw [hsplit, chunkBytes]
  constructor
  · intro h
    obtain ⟨h, hcrc⟩ := List.append_inj h (by simp)
    obtain ⟨h, hdata⟩ := List.append_inj h (by simp)
    obtain ⟨hlen, htype⟩ := List.append_inj h (by simp)
    exact ⟨hlen, htype, hdata, hcrc⟩
  · rintro ⟨hlen, htype, hdata, hcrc⟩
    rw [hlen, htype, hdata, hcrc]

/-! ### FRAME -/

/-- The data FRAME reads (43_chunk_codec.md rule R702). -/
def framedData (s : State) (l : Latch) : List Byte := dataAt s.mem l.ops.srcAddr.toNat l.ops.srcLen.toNat

@[simp] theorem framedData_length (s : State) (l : Latch) : (framedData s l).length = l.ops.srcLen.toNat := by
  simp [framedData]

/-- The bytes FRAME writes (43_chunk_codec.md rule R702). -/
def framedBytes (s : State) (l : Latch) : List Byte := chunkBytes l.ops.srcLen l.ops.chunkType (framedData s l)

@[simp] theorem framedBytes_length (s : State) (l : Latch) :
    (framedBytes s l).length = 12 + l.ops.srcLen.toNat := by
  simp [framedBytes]

/-- The state FRAME commits (43_chunk_codec.md rule R702). -/
def framed (s : State) (l : Latch) : State :=
  { s.emit (framedBytes s l) with chunkCrc := codecCrc l.ops.chunkType (framedData s l) }

/-- A FRAME commits exactly when its checks pass and its windows are apart (43_chunk_codec.md rules R702, R704). -/
theorem frameRule_eq_ok_iff {s t : State} {l : Latch} :
    frameRule s l = .ok t ↔
      frameCheck s l = none ∧ l.ops.source.overlaps (s.out.window (frameSize l.ops)) = false ∧ t = framed s l := by
  constructor
  · intro h
    obtain ⟨hc, ho, rfl⟩ := frameRule_ok h
    exact ⟨hc, ho, by simp only [framed, framedBytes, framedData, dataAt_eq]⟩
  · rintro ⟨hc, ho, rfl⟩
    simp [frameRule, hc, ho, framed, framedBytes, framedData, dataAt_eq]

/-- The fields a FRAME has written, each at its place (20_memory.md rules R208 to R210). -/
theorem framed_fields (s : State) (l : Latch) :
    let m := (framed s l).mem
    let p := s.out.ptr.toNat
    let n := l.ops.srcLen.toNat
    dataAt m p 4 = bytesBe32 l.ops.srcLen ∧ dataAt m (p + 4) 4 = bytesBe32 l.ops.chunkType ∧
      dataAt m (p + 8) n = framedData s l ∧
      dataAt m (p + 8 + n) 4 = bytesBe32 (codecCrc l.ops.chunkType (framedData s l)) := by
  have hbytes := dataAt_writeBytes_self s.mem s.out.ptr.toNat (framedBytes s l)
  rw [framedBytes_length, ← framedData_length s l] at hbytes
  have hfields := dataAt_eq_chunkBytes_iff.1 hbytes
  rwa [framedData_length] at hfields

/-- Windows that share no address do not overlap (43_chunk_codec.md rule R704). -/
theorem Window.overlaps_eq_false {v w : Window} (h : ∀ a, v.contains a = true → w.contains a = true → False) :
    v.overlaps w = false := by
  rw [Bool.eq_false_iff, Ne, Window.overlaps_iff]
  rintro ⟨a, hv, hw⟩
  exact h a hv hw

/-- Settles O38: the checks pass and the windows are apart, so FRAME commits the chunk's fields. -/
theorem frameCompletes : Obligations.FrameCompletes := by
  intro s l hl hletters hwindow hroom hapart
  have hcheck : frameCheck s l = none := frameCheck_eq_none.2 ⟨hletters, inRange_words hwindow, hroom⟩
  have ho : l.ops.source.overlaps (s.out.window (frameSize l.ops)) = false := by
    refine Window.overlaps_eq_false fun a hv hw => ?_
    rw [Window.contains_iff] at hv hw
    exact hapart a hv.1 hv.2 hw.1 hw.2
  have hout := emit_out_toNat (s := s) (b := framedBytes s l) (by simpa using hroom)
  rw [framedBytes_length] at hout
  obtain ⟨hlen, htype, hdata, hcrc⟩ := framed_fields s l
  refine ⟨_, exec_ok (i := .frame) hl (frameRule_eq_ok_iff.2 ⟨hcheck, ho, rfl⟩), ?_, hlen, htype, hdata, hcrc,
    fun a ha => ?_⟩
  · exact congrArg (fun o => { (framed s l).succeed with out := o }) hout
  · exact Memory.read_writeBytes_outside s.mem _ (by simpa using ha)

theorem frameCheck_noLetters {s : State} {l : Latch} (ht : letters4 l.ops.chunkType = false) :
    frameCheck s l = some { code := .invalidChunkType, addr := 0 } := by
  simp [frameCheck, ht]

theorem frameCheck_overflow {s : State} {l : Latch} (ht : letters4 l.ops.chunkType = true)
    (hr : inRange s.config l.ops.source = true) (hroom : s.out.rem.toNat < frameSize l.ops) :
    frameCheck s l = some { code := .dstOverflow, addr := s.out.ptr } := by
  simp [frameCheck, ht, hr, hroom]

/-- Settles O39: the first and the third of FRAME's checks. -/
theorem frameErrors : Obligations.FrameErrors := by
  intro s l hl
  refine ⟨fun ht => ?_, fun ht hwindow hroom => ?_⟩
  · exact exec_raise (i := .frame) hl (frameRule_of_check (frameCheck_noLetters ht))
  · exact exec_raise (i := .frame) hl (frameRule_of_check (frameCheck_overflow ht (inRange_words hwindow) hroom))

/-! ### DEFRAME -/

/-- A u32 field is read with the byte at its lowest address first (20_memory.md rules R208, R209). -/
theorem readBe32_bytes (m : Memory) (a : Nat) :
    (m.readBe32 a).extractLsb' 24 8 = m.read a ∧ (m.readBe32 a).extractLsb' 16 8 = m.read (a + 1) ∧
      (m.readBe32 a).extractLsb' 8 8 = m.read (a + 2) ∧ (m.readBe32 a).extractLsb' 0 8 = m.read (a + 3) := by
  have h := bytesBe32_be32 (m.read a) (m.read (a + 1)) (m.read (a + 2)) (m.read (a + 3))
  simp only [bytesBe32, List.cons.injEq, and_true] at h
  exact h

/-- With its source window in range, DEFRAME commits what the chunk decoder returns (43_chunk_codec.md rule R720). -/
theorem deframeRule_of_decodeChunk_ok {s : State} {l : Latch} {k : Chunk}
    (hr : inRange s.config l.ops.source = true)
    (hk : decodeChunk s.mem l.ops.srcAddr.toNat l.ops.srcLen.toNat = .ok k) :
    deframeRule s l = .ok (s.commitChunk k) := by
  simp [deframeRule, hr, hk]

/-- DEFRAME of a good chunk commits its fields and what is left of the window (43_chunk_codec.md rule R720). -/
theorem exec_deframe_good {s : State} {l : Latch} (hl : s.latch = some l)
    (hwindow : l.ops.srcAddr.toNat + l.ops.srcLen.toNat ≤ s.config.memSize)
    (hchunk : goodChunkAt s.mem l.ops.srcAddr.toNat l.ops.srcLen.toNat) :
    let a := l.ops.srcAddr.toNat
    let n := (s.mem.readBe32 a).toNat
    exec .deframe s = .next { s with
      dec := ⟨s.mem.readBe32 a, s.mem.readBe32 (a + 4), BitVec.ofNat 32 (a + 8), s.mem.readBe32 (a + 8 + n)⟩
      chunkCrc := s.mem.readBe32 (a + 8 + n)
      cur := ⟨BitVec.ofNat 32 (a + 12 + n), BitVec.ofNat 32 (l.ops.srcLen.toNat - (12 + n))⟩
      done := true
      latch := none } := by
  exact exec_ok (i := .deframe) hl
    (deframeRule_of_decodeChunk_ok (inRange_words (.inr hwindow)) (decodeChunk_good hchunk))

/-- Settles O41: the bytes of a field in their order, and the commit of a good chunk. -/
theorem deframeCompletes : Obligations.DeframeCompletes :=
  ⟨readBe32_bytes, fun _ _ hl hwindow hchunk => exec_deframe_good hl hwindow hchunk⟩

end Sys2Proof.Machine
end

section
/-! PROOFS. The register port: what each offset reads, what a read-write register stores, and that a narrow or unaligned
access reaches nothing (10_state.md rules R103 to R128, 20_memory.md rules R220 to R222). -/

namespace Sys2Proof.Machine

/-! ### Reads -/

/-- On the host's turn with a register read, the step records the value read (30_encoding.md rule R312). -/
theorem step_portRead {s : State} {offset : BitVec 7} {size : AccessSize}
    (h : s.nextTurn = .host (.portRead offset size)) :
    step s = .next (s.popTurn.observe (.reg (s.portRead offset size))) :=
  step_of_turn h

/-- Settles O15: a read adds to the record. -/
theorem registerReadHasNoSideEffect : Obligations.RegisterReadHasNoSideEffect := by
  intro s offset size hturn
  exact ⟨_, step_portRead hturn, rfl⟩

/-- The registers as the host reads them, from offset 0 up (10_state.md rule R103). -/
def State.registerMap (s : State) : List Word :=
  [0x504E4743, 0x00010000, s.ctrl.setWidth 32, s.status, 0, s.error.errcode, s.error.idx, s.error.addr,
   s.ops.srcAddr, s.ops.srcLen, s.ops.dstAddr, s.ops.dstCap, s.ops.chunkType, s.typeProps, s.ops.crcState,
   s.ops.crcState ^^^ 0xFFFFFFFF, s.dec.len, s.dec.chunkType, s.dec.dataAddr, s.dec.storedCrc, s.chunkCrc,
   s.cur.addr, s.cur.rem, s.chunkIdx, s.out.ptr, s.out.rem, s.out.count]

/-- The register at each aligned offset is looked up in the register map, offset by offset. -/
theorem portRead_eq_registerMap (s : State) {k : Nat} (hk : k < 32) :
    s.portRead (BitVec.ofNat 7 (4 * k)) .word = s.registerMap.getD k 0 := by
  interval_cases k <;> rfl

/-- Settles O16: the step records what the register map has at the offset. -/
theorem registerReadReturnsTheRegister : Obligations.RegisterReadReturnsTheRegister := by
  intro s k hk hturn
  rw [step_portRead hturn, portRead_eq_registerMap s hk]
  rfl

/-! ### Accesses that reach no register -/

/-- Registers stand at multiples of 4 (10_state.md rule R103). -/
theorem offsetOf_aligned (r : Reg) : (offsetOf r).toNat % 4 = 0 := by
  cases r <;> rfl

/-- A narrow or unaligned access reaches no register (20_memory.md rule R221). -/
theorem accessed_eq_none {offset : BitVec 7} {size : AccessSize} (h : size ≠ .word ∨ offset.toNat % 4 ≠ 0) :
    accessed offset size = none := by
  cases size with
  | byte => rfl
  | half => rfl
  | word =>
    refine Option.eq_none_iff_forall_ne_some.2 fun r hr => ?_
    obtain rfl := eq_offsetOf_of_regAt hr
    exact h.elim (absurd rfl) (absurd (offsetOf_aligned r))

theorem portRead_of_accessed_none {offset : BitVec 7} {size : AccessSize} (s : State)
    (h : accessed offset size = none) : s.portRead offset size = 0 := by
  simp [State.portRead, h]

theorem portWrite_of_accessed_none {offset : BitVec 7} {size : AccessSize} (s : State) (v : Word)
    (h : accessed offset size = none) : s.portWrite offset size v = s := by
  simp [State.portWrite, h]

/-- Settles O17: the access reaches no register. -/
theorem narrowOrUnalignedAccessReachesNothing : Obligations.NarrowOrUnalignedAccessReachesNothing := by
  intro s offset size h
  have hnone := accessed_eq_none h
  refine ⟨fun v hturn => ?_, portRead_of_accessed_none s hnone, fun hturn => ?_⟩
  · rw [step_portWrite hturn, portWrite_of_accessed_none s.popTurn v hnone]
  · rw [step_portRead hturn, portRead_of_accessed_none s hnone]
    rfl

/-! ### Writes -/

/-- A 32-bit write at a register's offset is the write to that register (20_memory.md rule R220). -/
theorem portWrite_offsetOf (s : State) (v : Word) (r : Reg) : s.portWrite (offsetOf r) .word v = s.writeReg v r := by
  cases r <;> rfl

/-- CTRL's three bits (10_state.md rule R106). -/
theorem writeReg_ctrl (s : State) (v : Word) : s.writeReg v .ctrl = { s with ctrl := v.extractLsb' 0 3 } := by
  have hbits : v.setWidth 3 = v.extractLsb' 0 3 := by
    apply BitVec.eq_of_getLsbD_eq
    intro k hk
    simp [hk]
  simp only [State.writeReg, hbits]

/-- Settles O18: each read-write register is written at its own offset. -/
theorem readWriteRegistersStore : Obligations.ReadWriteRegistersStore := by
  intro s v
  exact ⟨fun _ _ hturn => step_portWrite hturn,
    (portWrite_offsetOf s v .ctrl).trans (writeReg_ctrl s v),
    portWrite_offsetOf s v .srcAddr,
    portWrite_offsetOf s v .srcLen,
    portWrite_offsetOf s v .dstAddr,
    portWrite_offsetOf s v .dstCap,
    portWrite_offsetOf s v .type,
    portWrite_offsetOf s v .crcState⟩

end Sys2Proof.Machine
end

section
/-! PROOFS. The fields of the derived views: STATUS (10_state.md rule R107), ERRCODE (rule R109), TYPE_PROPS (rule R117)
and the type property bits (41_chunk_type.md rules R501 to R509). -/

namespace Sys2Proof.Machine

/-- A field is a value when its bits are. -/
theorem extractLsb'_eq_of_getLsbD {n start len : Nat} {w : BitVec n} {v : BitVec len}
    (h : ∀ k, k < len → w.getLsbD (start + k) = v.getLsbD k) : w.extractLsb' start len = v := by
  apply BitVec.eq_of_getLsbD_eq
  intro k hk
  rw [BitVec.getLsbD_extractLsb', h k hk, decide_eq_true hk, Bool.true_and]

/-! ### STATUS -/

/-- STATUS bit by bit (10_state.md rule R107). -/
theorem State.getLsbD_status (s : State) {j : Nat} (hj : j < 32) :
    s.status.getLsbD j =
      (s.busy && decide (0 = j) || s.done && decide (1 = j) || s.err && decide (2 = j) ||
        s.reject && decide (3 = j) || !decide (j < 4) && s.seq.code.getLsbD (j - 4) || s.eos && decide (6 = j)) := by
  have hsub : j - 4 < 32 := by omega
  simp (disch := decide) only [State.status, BitVec.getLsbD_or, getLsbD_flagAt, BitVec.getLsbD_shiftLeft,
    BitVec.getLsbD_setWidth, hj, hsub, decide_true, Bool.true_and]

theorem State.status_seq (s : State) : s.status.extractLsb' 4 2 = s.seq.code := by
  refine extractLsb'_eq_of_getLsbD fun k hk => ?_
  rw [s.getLsbD_status (by omega)]
  have hflags : (0 ≠ 4 + k ∧ 1 ≠ 4 + k) ∧ (2 ≠ 4 + k ∧ 3 ≠ 4 + k) ∧ 6 ≠ 4 + k := by omega
  simp [hflags, hk]

theorem State.status_eos (s : State) : s.status.getLsbD 6 = s.eos := by
  rw [s.getLsbD_status (by decide)]
  simp

theorem State.status_high (s : State) : s.status.extractLsb' 7 25 = 0 := by
  refine extractLsb'_eq_of_getLsbD fun k hk => ?_
  rw [s.getLsbD_status (by omega)]
  have hflags : (0 ≠ 7 + k ∧ 1 ≠ 7 + k) ∧ (2 ≠ 7 + k ∧ 3 ≠ 7 + k) ∧ 6 ≠ 7 + k := by omega
  simp [hflags, BitVec.getLsbD_of_ge s.seq.code (7 + k - 4) (by omega)]

/-- A flag is cleared where the written bit is 1 (10_state.md rule R107). -/
theorem State.writeStatus_eq (s : State) (v : Word) : s.writeStatus v = { s with
    done := if v.getLsbD 1 then false else s.done
    err := if v.getLsbD 2 then false else s.err
    reject := if v.getLsbD 3 then false else s.reject } := by
  have hclear : ∀ a b : Bool, (a && !b) = if b then false else a := by decide
  simp only [State.writeStatus, hclear]

/-- Settles O20: the fields bit by bit, and the write-one-to-clear of the three flags. -/
theorem statusFieldsAndWrites : Obligations.StatusFieldsAndWrites := by
  intro s
  refine ⟨⟨?_, s.getLsbD_status_one, s.getLsbD_status_two, s.getLsbD_status_three, ?_, ?_, s.status_high⟩,
    fun v => ⟨?_, fun hturn => ?_⟩⟩
  · rw [s.getLsbD_status_of_lt (by decide)]
    simp
  · rw [s.status_seq]
    cases s.seq <;> rfl
  · rw [s.status_eos, State.eos, beq_iff_eq]
  · exact (portWrite_offsetOf s v .status).trans (s.writeStatus_eq v)
  · rw [step_portWrite hturn]
    exact congrArg _ ((portWrite_offsetOf s.popTurn v .status).trans (s.popTurn.writeStatus_eq v))

/-! ### ERRCODE -/

/-- ERRCODE bit by bit (10_state.md rule R109). -/
theorem ErrorRecord.getLsbD_errcode (e : ErrorRecord) {j : Nat} (hj : j < 32) :
    e.errcode.getLsbD j =
      (!decide (j < 24) && e.opc.getLsbD (j - 24) || e.inSeq && decide (8 = j) || e.code.code.getLsbD j) := by
  have hsub : j - 24 < 32 := by omega
  simp (disch := decide) only [ErrorRecord.errcode, BitVec.getLsbD_or, getLsbD_flagAt, BitVec.getLsbD_shiftLeft,
    BitVec.getLsbD_setWidth, hj, hsub, decide_true, Bool.true_and]

theorem ErrorRecord.errcode_code (e : ErrorRecord) : e.errcode.extractLsb' 0 4 = e.code.code := by
  refine extractLsb'_eq_of_getLsbD fun k hk => ?_
  rw [e.getLsbD_errcode (by omega)]
  have hother : k < 24 ∧ 8 ≠ k := by omega
  simp [hother]

theorem ErrorRecord.errcode_low (e : ErrorRecord) : e.errcode.extractLsb' 4 4 = 0 := by
  refine extractLsb'_eq_of_getLsbD fun k hk => ?_
  rw [e.getLsbD_errcode (by omega)]
  have hother : 4 + k < 24 ∧ 8 ≠ 4 + k := by omega
  simp [hother]

theorem ErrorRecord.errcode_inSeq (e : ErrorRecord) : e.errcode.getLsbD 8 = e.inSeq := by
  rw [e.getLsbD_errcode (by decide)]
  simp

theorem ErrorRecord.errcode_middle (e : ErrorRecord) : e.errcode.extractLsb' 9 15 = 0 := by
  refine extractLsb'_eq_of_getLsbD fun k hk => ?_
  rw [e.getLsbD_errcode (by omega)]
  have hother : 9 + k < 24 ∧ 8 ≠ 9 + k := by omega
  simp [hother, BitVec.getLsbD_of_ge e.code.code (9 + k) (by omega)]

theorem ErrorRecord.errcode_opc (e : ErrorRecord) : e.errcode.extractLsb' 24 8 = e.opc := by
  refine extractLsb'_eq_of_getLsbD fun k hk => ?_
  rw [e.getLsbD_errcode (by omega)]
  have hother : 8 ≠ 24 + k := by omega
  simp [hother, hk, BitVec.getLsbD_of_ge e.code.code (24 + k) (by omega)]

/-- Settles O21: the fields bit by bit, and the code of each error. -/
theorem errcodeFields : Obligations.ErrcodeFields := by
  intro e
  refine ⟨?_, e.errcode_low, e.errcode_inSeq, e.errcode_middle, e.errcode_opc⟩
  rw [e.errcode_code]
  cases e.code <;> rfl

/-! ### TYPE_PROPS -/

/-- TYPE_PROPS bit by bit (10_state.md rule R117). -/
theorem State.getLsbD_typeProps (s : State) {j : Nat} (hj : j < 32) :
    s.typeProps.getLsbD j =
      ((props s.ops.chunkType).getLsbD j || !decide (j < 8) && (props s.dec.chunkType).getLsbD (j - 8)) := by
  have hsub : j - 8 < 32 := by omega
  simp only [State.typeProps, BitVec.getLsbD_or, BitVec.getLsbD_shiftLeft, BitVec.getLsbD_setWidth, hj, hsub,
    decide_true, Bool.true_and]

/-- Settles O22: each byte of TYPE_PROPS holds six bits of one type's properties. -/
theorem typePropsFields : Obligations.TypePropsFields := by
  intro s
  have hhigh : ∀ (w : Word) (j : Nat), 6 ≤ j → (props w).getLsbD j = false :=
    fun w j hj => BitVec.getLsbD_of_ge (props w) j hj
  refine ⟨extractLsb'_eq_of_getLsbD fun k hk => ?_, extractLsb'_eq_of_getLsbD fun k hk => ?_,
    extractLsb'_eq_of_getLsbD fun k hk => ?_, extractLsb'_eq_of_getLsbD fun k hk => ?_⟩
  all_goals rw [s.getLsbD_typeProps (by omega)]
  · have : k < 8 := by omega
    simp [this]
  · have : 6 + k < 8 := by omega
    simp [this]
  · simp [hhigh s.ops.chunkType (8 + k) (by omega)]
  · simp [hhigh s.ops.chunkType (14 + k) (by omega), hhigh s.dec.chunkType (14 + k - 8) (by omega)]

/-! ### The type property bits -/

theorem letter_iff (b : Byte) :
    letter b = true ↔ (0x41 ≤ b.toNat ∧ b.toNat ≤ 0x5A) ∨ (0x61 ≤ b.toNat ∧ b.toNat ≤ 0x7A) := by
  simp [letter]

/-- `letters4` byte by byte, from byte 0 in [31:24] (41_chunk_type.md rule R502). -/
theorem letters4_iff (w : Word) :
    letters4 w = true ↔ letter (w.extractLsb' 24 8) = true ∧ letter (w.extractLsb' 16 8) = true ∧
      letter (w.extractLsb' 8 8) = true ∧ letter (w.extractLsb' 0 8) = true := by
  simp [letters4, bytesBe32, wireByte]

/-- Bit j of the property bits is the j-th property (41_chunk_type.md rule R509). -/
theorem getLsbD_props (w : Word) (j : Nat) :
    (props w).getLsbD j =
      (conforming w && decide (5 = j) || safeToCopy w && decide (4 = j) || reservedSet w && decide (3 = j) ||
        isPublic w && decide (2 = j) || critical w && decide (1 = j) || letters4 w && decide (0 = j)) := by
  simp [props, getLsbD_flagAt]

/-- Bit 5 of type byte k is bit 8(3 - k) + 5 of the word (00_scope.md rule R13). -/
theorem getLsbD_wireByte_five (w : Word) (k : Nat) : (wireByte w k).getLsbD 5 = w.getLsbD (8 * (3 - k) + 5) := by
  rw [wireByte, BitVec.getLsbD_extractLsb']
  rfl

theorem critical_eq (w : Word) : critical w = !w.getLsbD 29 := by
  rw [critical, getLsbD_wireByte_five]

theorem isPublic_eq (w : Word) : isPublic w = !w.getLsbD 21 := by
  rw [isPublic, getLsbD_wireByte_five]

theorem reservedSet_eq (w : Word) : reservedSet w = w.getLsbD 13 := getLsbD_wireByte_five w 2

theorem safeToCopy_eq (w : Word) : safeToCopy w = w.getLsbD 5 := getLsbD_wireByte_five w 3

/-- Settles O23: each property is its bit of the word. -/
theorem typePropertyBits : Obligations.TypePropertyBits := by
  refine ⟨letter_iff, fun w => ⟨letters4_iff w, ?_, ?_, ?_, ?_, ?_, ?_⟩⟩ <;> rw [getLsbD_props]
  · simp
  · rw [critical_eq]
    simp
  · rw [isPublic_eq]
    simp
  · rw [reservedSet_eq]
    simp
  · rw [safeToCopy_eq]
    simp
  · rw [conforming, reservedSet_eq]
    simp

end Sys2Proof.Machine
end

section
/-! PROOFS. The windows of the command in flight, the host's memory accesses against them (20_memory.md rules R203, R231
to R235; 60_exceptions.md rule R931), and reset (70_reset_and_hazards.md rules R1001 to R1004). -/

namespace Sys2Proof.Machine

/-! ### The windows of each command -/

/-- The addresses each command reads (20_memory.md rule R203). -/
theorem readWindow_contains_iff (i : Instr) (l : Latch) (s : State) (a : Nat) :
    (readWindow i l s).contains a = true ↔
      (((i = .crcBuf ∨ i = .frame ∨ i = .deframe) ∧ l.ops.srcAddr.toNat ≤ a ∧
          a < l.ops.srcAddr.toNat + l.ops.srcLen.toNat) ∨
        (i = .seqStart ∧ l.ops.srcAddr.toNat ≤ a ∧ a < l.ops.srcAddr.toNat + min 8 l.ops.srcLen.toNat) ∨
        (i = .seqNext ∧ s.cur.addr.toNat ≤ a ∧ a < s.cur.addr.toNat + s.cur.rem.toNat)) := by
  cases i
  case crcBuf | frame | deframe => simp [readWindow, Operands.source, Window.contains_iff]
  case seqStart => simp [readWindow, Window.contains_iff]
  case seqNext => simp [readWindow, Cursor.window, Window.contains_iff]
  all_goals simp [readWindow]

/-- The addresses each command writes (20_memory.md rule R203). -/
theorem outputWindow_contains_iff (i : Instr) (l : Latch) (s : State) (a : Nat) :
    (outputWindow i l s).contains a = true ↔
      ((i = .frame ∧ s.out.ptr.toNat ≤ a ∧ a < s.out.ptr.toNat + (12 + l.ops.srcLen.toNat)) ∨
        (i = .sigEmit ∧ s.out.ptr.toNat ≤ a ∧ a < s.out.ptr.toNat + 8)) := by
  cases i
  case frame => simp [outputWindow, OutCursor.window, frameSize, Window.contains_iff]
  case sigEmit => simp [outputWindow, OutCursor.window, Window.contains_iff]
  all_goals simp [outputWindow]

/-- Settles O26: the table of buffer-memory accesses, read and written. -/
theorem commandWindows : Obligations.CommandWindows :=
  fun i l s a => ⟨readWindow_contains_iff i l s a, outputWindow_contains_iff i l s a⟩

/-! ### Addresses in the in-flight windows -/

theorem inFlightTouches_of_inFlight {s : State} {i : Instr} {l : Latch} (a : Nat) (h : s.inFlight = some (i, l)) :
    s.inFlightTouches a = ((readWindow i l s).contains a || (outputWindow i l s).contains a) := by
  simp [State.inFlightTouches, h]

theorem inFlightOutput_of_inFlight {s : State} {i : Instr} {l : Latch} (a : Nat) (h : s.inFlight = some (i, l)) :
    s.inFlightOutput a = (outputWindow i l s).contains a := by
  simp [State.inFlightOutput, h]

/-- An address outside both windows of any command in flight. -/
theorem inFlightTouches_eq_false {s : State} {a : Nat}
    (h : ∀ i l, s.inFlight = some (i, l) →
      (readWindow i l s).contains a = false ∧ (outputWindow i l s).contains a = false) :
    s.inFlightTouches a = false := by
  unfold State.inFlightTouches
  split
  · rfl
  · obtain ⟨hread, hout⟩ := h _ _ ‹_›
    rw [hread, hout]
    rfl

/-- Taking a turn changes no window. -/
theorem popTurn_inFlightTouches (s : State) (a : Nat) : s.popTurn.inFlightTouches a = s.inFlightTouches a := rfl

theorem popTurn_inFlightOutput (s : State) (a : Nat) : s.popTurn.inFlightOutput a = s.inFlightOutput a := rfl

/-! ### Host memory steps -/

theorem step_memRead {s : State} {a : Word} (h : s.nextTurn = .host (.memRead a)) :
    step s = hostMemRead a s.popTurn :=
  step_of_turn h

theorem step_memWrite {s : State} {a : Word} {b : Byte} (h : s.nextTurn = .host (.memWrite a b)) :
    step s = hostMemWrite a b s.popTurn :=
  step_of_turn h

/-- Settles O25: the byte lies in the read window or in the output window. -/
theorem hostRaceFaults : Obligations.HostRaceFaults := by
  intro s l i a b hturn hl hi ha
  rw [step_memWrite hturn]
  apply hostMemWrite_race
  rw [popTurn_inFlightTouches, inFlightTouches_of_inFlight _ (inFlight_eq hl hi), Bool.or_eq_true,
    outputWindow_contains_iff, ← Nat.add_assoc]
  exact ha

/-- Settles O27: the byte lies outside both windows. -/
theorem hostWriteElsewhereIsOrdinary : Obligations.HostWriteElsewhereIsOrdinary := by
  intro s a b hturn ha houtside
  have htouches : s.popTurn.inFlightTouches a.toNat = false := inFlightTouches_eq_false (s := s) houtside
  refine ⟨_, (step_memWrite hturn).trans (hostMemWrite_ordinary ha htouches), rfl, fun x => ?_⟩
  exact Memory.read_write s.mem a.toNat x b

/-- Settles O28: the byte lies in the output window. -/
theorem hostReadOfInFlightOutputIsFree : Obligations.HostReadOfInFlightOutputIsFree := by
  intro s l i a hturn ha hl hi hout
  have ho : s.popTurn.inFlightOutput a.toNat = true := by
    rw [popTurn_inFlightOutput, inFlightOutput_of_inFlight _ (inFlight_eq hl hi), hout]
  exact (step_memRead hturn).trans (hostMemRead_output ha ho)

theorem step_memRead_ordinary {s : State} {a : Word} (hturn : s.nextTurn = .host (.memRead a))
    (ha : a.toNat < s.config.memSize) (ho : s.inFlightOutput a.toNat = false) :
    step s = .next { s.popTurn with observed := .mem (s.mem.read a.toNat) :: s.observed } :=
  (step_memRead hturn).trans (hostMemRead_ordinary (s := s.popTurn) ha ho)

/-- Settles O29: the byte lies outside the output window, and a byte the host could write lies outside both windows, so
the read after it finds what was written. -/
theorem hostReadsBackItsWrite : Obligations.HostReadsBackItsWrite := by
  refine ⟨fun s a hturn ha houtside => step_memRead_ordinary hturn ha (inFlightOutput_eq_false houtside), ?_⟩
  intro s t a b rest hagenda hstep
  rw [step_memWrite (nextTurn_cons hagenda)] at hstep
  obtain ⟨ha, htouches, ht⟩ := hostMemWrite_next hstep
  have hrest : t.agenda = .host (.memRead a) :: rest := by
    rw [ht, State.popTurn_agenda, hagenda]
    rfl
  have ha' : a.toNat < t.config.memSize := by rwa [ht]
  have ho : t.inFlightOutput a.toNat = false := by
    rw [ht]
    exact inFlightOutput_of_touches (s := s) htouches
  have hread : t.mem.read a.toNat = b := by rw [ht, Memory.read_write_self]
  have hobserved : t.observed = s.observed := by rw [ht, State.popTurn_observed]
  have hpop : t.popTurn = { t with agenda := rest } := by rw [State.popTurn, hrest, List.tail_cons]
  rw [step_memRead_ordinary (nextTurn_cons hrest) ha' ho, hread, hobserved, hpop]

theorem inFlightTouches_of_idle {s : State} (a : Nat) (h : s.inFlight = none) : s.inFlightTouches a = false := by
  simp [State.inFlightTouches, h]

/-- Settles O30: the address does not exist, and with no command in flight there is no race. -/
theorem hostAddressOutsideMemoryFaults : Obligations.HostAddressOutsideMemoryFaults := by
  intro s a hidle ha
  have hnone : s.popTurn.hasAddress a = false := by
    rw [Bool.eq_false_iff, Ne, hasAddress_iff]
    exact Nat.not_lt.2 ha
  have htouches : s.popTurn.inFlightTouches a.toNat = false := inFlightTouches_of_idle (s := s) _ hidle
  refine ⟨fun hturn => ?_, fun b hturn => ?_⟩
  · rw [step_memRead hturn]
    simp [hostMemRead, hnone]
  · rw [step_memWrite hturn]
    simp [hostMemWrite, htouches, hnone]

/-! ### Reset -/

/-- With an empty abandoned window a reset leaves memory alone (70_reset_and_hazards.md rule R1004). -/
theorem doReset_mem_of_empty {s : State} (h : s.abandonedWindow = Window.empty) : s.doReset.mem = s.mem := by
  rw [State.doReset_mem, h]
  rfl

/-- With no command in flight, or one that writes no window or would have failed, nothing is abandoned
(70_reset_and_hazards.md rule R1003; log entry 8). -/
theorem abandonedWindow_eq_empty {s : State}
    (h : ∀ i l, s.inFlight = some (i, l) → (i = .frame ∨ i = .sigEmit) → ∃ e, ruleOf i s l = .raise e) :
    s.abandonedWindow = Window.empty := by
  rcases abandonedWindow_cases s with hempty | ⟨i, l, hi, -, ⟨rfl, hc⟩ | ⟨rfl, hc⟩⟩
  · exact hempty
  · obtain ⟨e, he⟩ := h _ l hi (.inl rfl)
    have hsome := frameRule_raise he
    rw [hc] at hsome
    cases hsome
  · obtain ⟨e, he⟩ := h _ l hi (.inr rfl)
    rw [ruleOf, sigEmitRule_room l (sigEmitCheck_eq_none.1 hc)] at he
    cases he

/-- Outside the output window of the command in flight a reset leaves memory alone. -/
theorem doReset_read_outside {s : State} {i : Instr} {l : Latch} {a : Nat} (hi : s.inFlight = some (i, l))
    (ha : (outputWindow i l s).contains a = false) : s.doReset.mem.read a = s.mem.read a := by
  rcases abandonedWindow_cases s with hempty | ⟨j, k, hj, hwindow, -⟩
  · rw [doReset_mem_of_empty hempty]
  · rw [hi] at hj
    cases hj
    rw [State.doReset_mem, hwindow]
    apply read_writeBytes_of_not_contains
    rwa [freeBytes_length]

/-- A command that answers with ERR = 1 from ERR = 0 has raised an error from its latch. -/
theorem exec_next_raise {i : Instr} {s t : State} {l : Latch} (hl : s.latch = some l) (hs : s.err = false)
    (h : exec i s = .next t) (ht : t.err = true) : ∃ e, ruleOf i s l = .raise e := by
  obtain ⟨l', hl', ⟨u, hu, rfl⟩ | ⟨e, he, -⟩⟩ := exec_next h
  · obtain ⟨-, -, herr, -⟩ := ruleOf_ok_keeps hu
    simp [herr, hs] at ht
  · obtain rfl : l' = l := Option.some.inj (hl'.symm.trans hl)
    exact ⟨e, he⟩

theorem popTurn_abandonedWindow (s : State) : s.popTurn.abandonedWindow = s.abandonedWindow := rfl

/-- Settles O7: the registers are those of reset, and only what a command in flight could still write is left open. -/
theorem resetEventFromAnyState : Obligations.ResetEventFromAnyState := by
  intro s hturn
  have hkept : s.abandonedWindow = Window.empty → s.popTurn.doReset.mem = s.mem := fun h =>
    doReset_mem_of_empty ((popTurn_abandonedWindow s).trans h)
  refine ⟨s.popTurn.doReset, step_of_turn hturn, rfl, fun hidle => ?_,
    fun i l hi => ⟨fun hf hs => ?_, fun u hu herr hfail => ?_, fun a ha => ?_⟩⟩
  · refine hkept (abandonedWindow_eq_empty fun i l hi => ?_)
    cases hidle.symm.trans hi
  · refine hkept (abandonedWindow_eq_empty fun j k hj hwrites => ?_)
    cases hi.symm.trans hj
    exact absurd hwrites (not_or.2 ⟨hf, hs⟩)
  · refine hkept (abandonedWindow_eq_empty fun j k hj _ => ?_)
    cases hi.symm.trans hj
    exact exec_next_raise (inFlight_some hi).1 herr hu hfail
  · exact doReset_read_outside (s := s.popTurn) hi ha

end Sys2Proof.Machine
end

section
/-! PROOFS. The laws of the CRC functions (42_crc.md rule R605). -/

namespace Sys2Proof.Machine

/-- The register after a concatenation (42_crc.md rule R605 (a)). -/
theorem fold_append (c : Word) (s t : List Byte) : fold c (s ++ t) = fold (fold c s) t := by
  induction s generalizing c with
  | nil => rfl
  | cons b s ih => exact ih (upd c b)

/-- `upd` is linear in register and byte together. -/
theorem upd_xor (c d : Word) (b e : Byte) : upd c b ^^^ upd d e = upd (c ^^^ d) (b ^^^ e) := by
  unfold upd
  rw [← crcShifts_xor, BitVec.setWidth_xor]
  congr 1
  ac_rfl

/-- `fold` is linear in register and sequence together (42_crc.md rule R605 (e)). -/
theorem fold_xor {s t : List Byte} (c d : Word) (h : s.length = t.length) :
    fold c s ^^^ fold d t = fold (c ^^^ d) (List.zipWith (· ^^^ ·) s t) := by
  induction s generalizing t c d with
  | nil =>
    obtain rfl : t = [] := List.length_eq_zero_iff.1 h.symm
    rfl
  | cons b s ih =>
    cases t with
    | nil => cases h
    | cons e t =>
      simp only [fold_cons, List.zipWith_cons_cons]
      rw [ih _ _ (Nat.succ.inj h), upd_xor]

/-- The xor of the CRCs of two sequences of one length depends on their xor alone (42_crc.md rule R605 (e)). -/
theorem crc32_xor {s t : List Byte} (h : s.length = t.length) :
    crc32 s ^^^ crc32 t = fold 0 (List.zipWith (· ^^^ ·) s t) := by
  have hones : crc32 s ^^^ crc32 t = fold crcOnes s ^^^ fold crcOnes t := by
    unfold crc32
    rw [BitVec.xor_comm (fold crcOnes t), BitVec.xor_assoc, ← BitVec.xor_assoc crcOnes, BitVec.xor_self,
      BitVec.zero_xor]
  rw [hones, fold_xor _ _ h, BitVec.xor_self]
  rfl

/-- Sequences that differ in one byte have different CRCs: no update loses it (42_crc.md rule R605). -/
theorem crc32_ne_of_byte_ne {b e : Byte} (p q : List Byte) (h : e ≠ b) : crc32 (p ++ e :: q) ≠ crc32 (p ++ b :: q) := by
  intro hcrc
  have hfold : fold crcOnes (p ++ e :: q) = fold crcOnes (p ++ b :: q) := (BitVec.xor_left_inj crcOnes).1 hcrc
  rw [fold_append, fold_append, fold_cons, fold_cons] at hfold
  have hupd := (upd_eq_iff _ _ e b).1 (fold_inj q hfold)
  rw [BitVec.xor_right_inj] at hupd
  apply h
  simpa using congrArg (BitVec.setWidth 8) hupd

/-- Flipping a bit changes the byte. -/
theorem xor_two_pow_ne (b : Byte) {j : Nat} (hj : j < 8) : b ^^^ BitVec.ofNat 8 (2 ^ j) ≠ b := by
  intro h
  have hbit := congrArg (fun v : Byte => v.getLsbD j) h
  simp only [BitVec.getLsbD_xor, BitVec.getLsbD_ofNat, Nat.testBit_two_pow_self, hj] at hbit
  cases hb : b.getLsbD j <;> simp [hb] at hbit

/-- Settles O36: the CRC register update is linear and loses nothing. -/
theorem crcLaws : Obligations.CrcLaws := by
  refine ⟨fold_append, by decide, by decide, fun c d b e h => (upd_eq_iff c d b e).2 h,
    fun c d s t h => fold_xor c d h, fun s s' u u' hs hu h => ?_,
    fun p q b j hj => crc32_ne_of_byte_ne p q (xor_two_pow_ne b hj)⟩
  rw [crc32_xor hs, crc32_xor hu, h]

end Sys2Proof.Machine
end

section
/-! PROOFS. What a completion depends on: the bytes of the read window (00_scope.md rule R21, the spec's inference) and
the latched operands, not those the host writes meanwhile (40_command.md rule R408). -/

namespace Sys2Proof.Machine

/-- A rule's result with its commit changed, an error or a stop being left alone. -/
def CmdResult.map (f : State → State) : CmdResult → CmdResult
  | .ok t => .ok (f t)
  | .raise e => .raise e
  | .stop g => .stop g

theorem eq_map_of_ok {x y : CmdResult} {f : State → State} {t : State} (hx : x = .ok t)
    (hy : y = .ok (f t)) : y = x.map f := by
  rw [hx, hy]
  rfl

theorem eq_map_of_raise {x y : CmdResult} {f : State → State} {e : CmdError} (hx : x = .raise e)
    (hy : y = .raise e) : y = x.map f := by
  rw [hx, hy]
  rfl

theorem eq_map_of_stop {x y : CmdResult} {f : State → State} {g : Fault} (hx : x = .stop g)
    (hy : y = .stop g) : y = x.map f := by
  rw [hx, hy]
  rfl

/-! ### The read window -/

/-- The chunk decoder reads its window only (43_chunk_codec.md rule R711). -/
theorem decodeChunk_congr {m m' : Memory} {a r : Nat} (h : ∀ k, k < r → m'.read (a + k) = m.read (a + k)) :
    decodeChunk m' a r = decodeChunk m a r := by
  have hfield : ∀ x, x + 4 ≤ r → m'.readBe32 (a + x) = m.readBe32 (a + x) := by
    intro x hx
    unfold Memory.readBe32
    rw [h x (by omega), Nat.add_assoc, h (x + 1) (by omega), Nat.add_assoc, h (x + 2) (by omega), Nat.add_assoc,
      h (x + 3) (by omega)]
  unfold decodeChunk
  by_cases h4 : r < 4
  · rw [if_pos h4, if_pos h4]
  · have hlen : m'.readBe32 a = m.readBe32 a := hfield 0 (by omega)
    rw [if_neg h4, if_neg h4, hlen]
    by_cases h12 : r - 4 < 4 + (m.readBe32 a).toNat + 4
    · simp only [if_pos h12]
    · have htype : m'.readBe32 (a + 4) = m.readBe32 (a + 4) := hfield 4 (by omega)
      have hstored : m'.readBe32 (a + 8 + (m.readBe32 a).toNat) = m.readBe32 (a + 8 + (m.readBe32 a).toNat) := by
        rw [Nat.add_assoc]
        exact hfield _ (by omega)
      have hdata : m'.readBytes (a + 8) (m.readBe32 a).toNat = m.readBytes (a + 8) (m.readBe32 a).toNat :=
        Memory.readBytes_congr fun k hk => by
          rw [Nat.add_assoc]
          exact h _ (by omega)
      simp only [htype, hstored, hdata]

/-- The signature check reads the first eight bytes of its window only (44_sequencer.md rule R801). -/
theorem signatureOk_congr {m m' : Memory} {w : Window}
    (h : ∀ k, k < min 8 w.len → m'.read (w.base + k) = m.read (w.base + k)) :
    signatureOk m' w = signatureOk m w := by
  unfold signatureOk
  split
  · rfl
  · rw [Memory.readBytes_congr fun k hk => h k (by omega)]

/-- The bytes a command that commits writes at OUT_PTR (43_chunk_codec.md rule R702, 44_sequencer.md rule R821). -/
def writtenBytes (i : Instr) (s : State) (l : Latch) : List Byte :=
  match i with
  | .frame => framedBytes s l
  | .sigEmit => sig
  | _ => []

/-- The output window is where the bytes are written. -/
theorem outputWindow_eq_writtenBytes (i : Instr) (s : State) (l : Latch) :
    outputWindow i l s = ⟨s.out.ptr.toNat, (writtenBytes i s l).length⟩ ∨ writtenBytes i s l = [] := by
  cases i
  case frame => exact .inl (by simp [outputWindow, OutCursor.window, frameSize, writtenBytes])
  case sigEmit => exact .inl rfl
  all_goals exact .inr rfl

/-! ### The rules from rewritten operand registers and another memory -/

/-- The state with other operand registers and another memory, as the host can leave them while a command is in
flight. -/
def State.rewritten (s : State) (o : Operands) (m : Memory) : State := { s with ops := o, mem := m }

/-- The operand registers after a commit to `t`, those before it being `o`: only a CRC command writes one, CRC_STATE
(42_crc.md rule R606). -/
def operandsAfter (i : Instr) (o : Operands) (t : State) : Operands :=
  match i with
  | .crcInit | .crcByte _ | .crcBuf => { o with crcState := t.ops.crcState }
  | _ => o

/-- What a commit to `t` from `s` is a commit to from rewritten registers and another memory: the same registers are
committed and the same bytes written. -/
def rewrittenCommit (i : Instr) (s : State) (l : Latch) (o : Operands) (m : Memory) (t : State) : State :=
  t.rewritten (operandsAfter i o t) (m.writeBytes s.out.ptr.toNat (writtenBytes i s l))

theorem frameRule_rewritten {s : State} {l : Latch} {o : Operands} {m : Memory}
    (hd : framedData (s.rewritten o m) l = framedData s l) :
    frameRule (s.rewritten o m) l = (frameRule s l).map (rewrittenCommit .frame s l o m) := by
  cases hc : frameCheck s l with
  | some e => exact eq_map_of_raise (frameRule_of_check hc) (frameRule_of_check (s := s.rewritten o m) hc)
  | none =>
    cases ho : l.ops.source.overlaps (s.out.window (frameSize l.ops)) with
    | true => exact eq_map_of_stop (frameRule_overlap hc ho) (frameRule_overlap (s := s.rewritten o m) hc ho)
    | false =>
      refine eq_map_of_ok (frameRule_eq_ok_iff.2 ⟨hc, ho, rfl⟩) (frameRule_eq_ok_iff.2 ⟨hc, ho, ?_⟩)
      simp only [framed, framedBytes, hd]
      rfl

theorem deframeRule_rewritten {s : State} {l : Latch} {o : Operands} {m : Memory}
    (hd : decodeChunk m l.ops.srcAddr.toNat l.ops.srcLen.toNat =
      decodeChunk s.mem l.ops.srcAddr.toNat l.ops.srcLen.toNat) :
    deframeRule (s.rewritten o m) l = (deframeRule s l).map (rewrittenCommit .deframe s l o m) := by
  cases hr : inRange s.config l.ops.source with
  | false => exact eq_map_of_raise (deframeRule_busError hr) (deframeRule_busError (s := s.rewritten o m) hr)
  | true =>
    cases hk : decodeChunk s.mem l.ops.srcAddr.toNat l.ops.srcLen.toNat with
    | error e =>
      exact eq_map_of_raise (deframeRule_of_decodeChunk_error hr hk)
        (deframeRule_of_decodeChunk_error (s := s.rewritten o m) hr (hd.trans hk))
    | ok k =>
      exact eq_map_of_ok (deframeRule_of_decodeChunk_ok hr hk)
        (deframeRule_of_decodeChunk_ok (s := s.rewritten o m) hr (hd.trans hk))

theorem seqStartRule_rewritten {s : State} {l : Latch} {o : Operands} {m : Memory}
    (hd : signatureOk m l.ops.source = signatureOk s.mem l.ops.source) :
    seqStartRule (s.rewritten o m) l = (seqStartRule s l).map (rewrittenCommit .seqStart s l o m) := by
  cases hr : inRange s.config l.ops.source with
  | false => exact eq_map_of_raise (seqStartRule_busError hr) (seqStartRule_busError (s := s.rewritten o m) hr)
  | true =>
    cases hs : signatureOk s.mem l.ops.source with
    | false =>
      exact eq_map_of_raise (seqStartRule_invalidSignature hr hs)
        (seqStartRule_invalidSignature (s := s.rewritten o m) hr (hd.trans hs))
    | true =>
      exact eq_map_of_ok (seqStartRule_signature hr hs)
        (seqStartRule_signature (s := s.rewritten o m) hr (hd.trans hs))

theorem seqNextRule_busError {s : State} (l : Latch) (hq : s.seq.isOpen = true) (h : s.cur.rem ≠ 0)
    (hr : inRange s.config s.cur.window = false) : seqNextRule s l = .raise (chunkErrorAt .busError s) := by
  unfold seqNextRule
  rw [if_neg (by simp [hq]), if_neg h, if_pos (by simp [hr])]

theorem seqNextRule_of_decodeChunk_error {s : State} {e : ErrCode} (l : Latch) (hq : s.seq.isOpen = true)
    (h : s.cur.rem ≠ 0) (hr : inRange s.config s.cur.window = true)
    (hk : decodeChunk s.mem s.cur.addr.toNat s.cur.rem.toNat = .error e) :
    seqNextRule s l = .raise (chunkErrorAt e s) := by
  rw [seqNextRule_decode l hq h hr, hk]

theorem seqNextRule_of_decodeChunk_ok {s : State} {k : Chunk} (l : Latch) (hq : s.seq.isOpen = true)
    (h : s.cur.rem ≠ 0) (hr : inRange s.config s.cur.window = true)
    (hk : decodeChunk s.mem s.cur.addr.toNat s.cur.rem.toNat = .ok k) :
    seqNextRule s l = .ok { s.commitChunk k with chunkIdx := s.chunkIdx + 1, seq := .stream } := by
  rw [seqNextRule_decode l hq h hr, hk]

theorem seqNextRule_rewritten {s : State} {l : Latch} {o : Operands} {m : Memory}
    (hd : decodeChunk m s.cur.addr.toNat s.cur.rem.toNat = decodeChunk s.mem s.cur.addr.toNat s.cur.rem.toNat) :
    seqNextRule (s.rewritten o m) l = (seqNextRule s l).map (rewrittenCommit .seqNext s l o m) := by
  cases hq : s.seq.isOpen with
  | false => exact eq_map_of_raise (seqNextRule_closed l hq) (seqNextRule_closed (s := s.rewritten o m) l hq)
  | true =>
    by_cases h0 : s.cur.rem = 0
    · exact eq_map_of_ok (seqNextRule_end l hq h0) (seqNextRule_end (s := s.rewritten o m) l hq h0)
    · cases hr : inRange s.config s.cur.window with
      | false =>
        exact eq_map_of_raise (seqNextRule_busError l hq h0 hr)
          (seqNextRule_busError (s := s.rewritten o m) l hq h0 hr)
      | true =>
        cases hk : decodeChunk s.mem s.cur.addr.toNat s.cur.rem.toNat with
        | error e =>
          exact eq_map_of_raise (seqNextRule_of_decodeChunk_error l hq h0 hr hk)
            (seqNextRule_of_decodeChunk_error (s := s.rewritten o m) l hq h0 hr (hd.trans hk))
        | ok k =>
          exact eq_map_of_ok (seqNextRule_of_decodeChunk_ok l hq h0 hr hk)
            (seqNextRule_of_decodeChunk_ok (s := s.rewritten o m) l hq h0 hr (hd.trans hk))

/-- A command's result from rewritten operand registers (40_command.md rule R408), and in another memory that agrees on
its read window (00_scope.md rule R21), is the same error or stop, or the rewritten commit. -/
theorem ruleOf_rewritten {i : Instr} {s : State} {l : Latch} {m : Memory} (o : Operands)
    (h : ∀ a, (readWindow i l s).contains a = true → m.read a = s.mem.read a) :
    ruleOf i (s.rewritten o m) l = (ruleOf i s l).map (rewrittenCommit i s l o m) := by
  have hread : ∀ {w}, readWindow i l s = w → ∀ k, k < w.len → m.read (w.base + k) = s.mem.read (w.base + k) := by
    rintro _ rfl k hk
    exact h _ ((Window.contains_iff _ _).2 (by omega))
  cases i with
  | nop => rfl
  | crcInit => rfl
  | crcByte b => rfl
  | crcBuf =>
    have hbytes : (s.rewritten o m).mem.readBytes l.ops.srcAddr.toNat l.ops.srcLen.toNat = _ :=
      Memory.readBytes_congr (hread (w := l.ops.source) rfl)
    cases hr : inRange s.config l.ops.source with
    | false => exact eq_map_of_raise (crcBufRule_busError hr) (crcBufRule_busError (s := s.rewritten o m) hr)
    | true =>
      refine eq_map_of_ok (crcBufRule_inRange hr) ((crcBufRule_inRange (s := s.rewritten o m) hr).trans ?_)
      rw [hbytes]
      rfl
  | typeCheck =>
    cases ht : letters4 l.ops.chunkType with
    | false => exact eq_map_of_raise (typeCheckRule_noLetters ht) (typeCheckRule_noLetters ht)
    | true => exact eq_map_of_ok (typeCheckRule_letters ht) (typeCheckRule_letters ht)
  | frame => exact frameRule_rewritten (dataAt_congr (hread rfl))
  | deframe => exact deframeRule_rewritten (decodeChunk_congr (hread (w := l.ops.source) rfl))
  | seqStart => exact seqStartRule_rewritten (signatureOk_congr (hread rfl))
  | seqNext => exact seqNextRule_rewritten (decodeChunk_congr (hread (w := s.cur.window) rfl))
  | outStart =>
    cases hr : inRange s.config l.ops.destination with
    | false => exact eq_map_of_raise (outStartRule_busError hr) (outStartRule_busError (s := s.rewritten o m) hr)
    | true => exact eq_map_of_ok (outStartRule_inRange hr) (outStartRule_inRange (s := s.rewritten o m) hr)
  | sigEmit =>
    by_cases h8 : 8 ≤ s.out.rem.toNat
    · exact eq_map_of_ok (sigEmitRule_room l h8) (sigEmitRule_room (s := s.rewritten o m) l h8)
    · have h8' : s.out.rem.toNat < 8 := Nat.lt_of_not_le h8
      exact eq_map_of_raise (sigEmitRule_overflow l h8') (sigEmitRule_overflow (s := s.rewritten o m) l h8')

/-- A commit has written `writtenBytes` at OUT_PTR (20_memory.md rule R203). -/
theorem ruleOf_ok_mem_eq {i : Instr} {s t : State} {l : Latch} (h : ruleOf i s l = .ok t) :
    t.mem = s.mem.writeBytes s.out.ptr.toNat (writtenBytes i s l) := by
  rcases ruleOf_ok_mem h with ⟨hf, hs, hmem⟩ | ⟨b, hwindow, -, h0, -⟩
  · cases i
    case frame => exact absurd rfl hf
    case sigEmit => exact absurd rfl hs
    all_goals exact hmem
  · cases i
    case frame =>
      obtain ⟨-, -, rfl⟩ := frameRule_eq_ok_iff.1 h
      rfl
    case sigEmit =>
      obtain ⟨-, rfl⟩ := sigEmitRule_ok (l := l) h
      rfl
    all_goals exact absurd (congrArg Window.len hwindow) h0.ne

/-- A commit is the rewritten commit to its own registers and memory. -/
theorem operandsAfter_self {i : Instr} {s t : State} {l : Latch} (h : ruleOf i s l = .ok t) :
    operandsAfter i s.ops t = t.ops := by
  obtain ⟨-, -, -, -, -, hops, -⟩ := ruleOf_ok_keeps h
  cases i
  case crcInit | crcByte b | crcBuf => exact hops.symm
  all_goals exact (ruleOf_ok_crcState h (by simp) (by simp) (by simp)).symm

/-- Bytes written over a whole window read the same in any memory. -/
theorem read_writeBytes_of_contains (m m' : Memory) {p a : Nat} (b : List Byte)
    (h : Window.contains ⟨p, b.length⟩ a = true) : (m.writeBytes p b).read a = (m'.writeBytes p b).read a := by
  obtain ⟨hlo, hhi⟩ := (Window.contains_iff _ _).1 h
  obtain ⟨k, rfl⟩ := Nat.exists_eq_add_of_le hlo
  have hk : k < b.length := Nat.lt_of_add_lt_add_left hhi
  exact (Memory.read_writeBytes_inside m p k b hk).trans (Memory.read_writeBytes_inside m' p k b hk).symm

/-- Settles O13: the rule gives the same result in both memories, and a commit writes the same bytes. -/
theorem resultDependsOnlyOnTheReadWindow : Obligations.ResultDependsOnlyOnTheReadWindow := by
  intro i s l m hl hagree
  have hl' : (s.rewritten s.ops m).latch = some l := hl
  have hrule := ruleOf_rewritten s.ops hagree
  have hother : ({ s with mem := m } : State) = s.rewritten s.ops m := rfl
  rw [hother]
  cases hr : ruleOf i s l with
  | raise e =>
    rw [hr] at hrule
    rw [exec_raise hl hr, exec_raise hl' hrule]
    exact ⟨rfl, .inl ⟨rfl, rfl⟩⟩
  | stop f =>
    rw [hr] at hrule
    rw [exec_stop hl hr, exec_stop hl' hrule]
  | ok t =>
    rw [hr] at hrule
    rw [exec_ok hl hr, exec_ok hl' hrule]
    have hmem := ruleOf_ok_mem_eq hr
    refine ⟨?_, ?_⟩
    · simp only [rewrittenCommit, operandsAfter_self hr]
      rfl
    · rcases outputWindow_eq_writtenBytes i s l with hwindow | hnone
      · right
        intro a
        rw [hwindow, State.succeed_mem, State.succeed_mem, hmem]
        split
        · exact read_writeBytes_of_contains m s.mem _ ‹_›
        · exact read_writeBytes_of_not_contains m _ (Bool.eq_false_iff.2 ‹_›)
      · rw [hnone] at hmem
        exact .inl ⟨hmem, by simp only [rewrittenCommit, hnone]; rfl⟩

theorem operandsAfter_of_crc {i : Instr} (o : Operands) (t : State)
    (h : i = .crcInit ∨ i = .crcBuf ∨ ∃ b, i = .crcByte b) :
    operandsAfter i o t = { o with crcState := t.ops.crcState } := by
  rcases h with rfl | rfl | ⟨b, rfl⟩ <;> rfl

theorem operandsAfter_of_not_crc {i : Instr} (o : Operands) (t : State)
    (h : ¬(i = .crcInit ∨ i = .crcBuf ∨ ∃ b, i = .crcByte b)) : operandsAfter i o t = o := by
  cases i
  case crcInit => exact absurd (.inl rfl) h
  case crcBuf => exact absurd (.inr (.inl rfl)) h
  case crcByte b => exact absurd (.inr (.inr ⟨b, rfl⟩)) h
  all_goals rfl

/-- Settles O14: the rule reads the latched operands, and only a CRC command's commit writes a register. -/
theorem operandWritesDoNotReachTheCommand : Obligations.OperandWritesDoNotReachTheCommand := by
  intro i s t o hdone h
  obtain ⟨l, hl, ⟨u, hu, rfl⟩ | ⟨e, he, rfl⟩⟩ := exec_next h
  · have hrule : ruleOf i (s.rewritten o s.mem) l = .ok (u.rewritten (operandsAfter i o u) u.mem) := by
      rw [ruleOf_rewritten o (fun _ _ => rfl), hu, ruleOf_ok_mem_eq hu]
      rfl
    have hexec := exec_ok (s := s.rewritten o s.mem) hl hrule
    by_cases hi : i = .crcInit ∨ i = .crcBuf ∨ ∃ b, i = .crcByte b
    · rw [operandsAfter_of_crc o u hi] at hexec
      rw [if_pos ⟨rfl, hi⟩]
      exact hexec
    · rw [operandsAfter_of_not_crc o u hi] at hexec
      rw [if_neg fun hd => hi hd.2]
      exact hexec
  · have hrule : ruleOf i (s.rewritten o s.mem) l = .raise e := by
      rw [ruleOf_rewritten o (fun _ _ => rfl), he]
      rfl
    rw [if_neg fun hd => by simp [hdone] at hd]
    exact exec_raise (s := s.rewritten o s.mem) hl hrule

end Sys2Proof.Machine
end

section
/-! PROOFS. FRAME and DEFRAME against each other: the round trip, the rejection of a chunk with one bit flipped, and
framing a decoded chunk again (43_chunk_codec.md rules R721, R722, 44_sequencer.md rule R825, the spec's inferences). -/

namespace Sys2Proof.Machine

/-! ### A chunk in memory, read -/

/-- The fields of a chunk's bytes, as the decoder reads them (43_chunk_codec.md rule R711). -/
theorem fields_of_chunkBytes {m : Memory} {a : Nat} {len ty : Word} {d : List Byte} (hd : d.length = len.toNat)
    (h : dataAt m a (12 + len.toNat) = chunkBytes len ty d) :
    m.readBe32 a = len ∧ m.readBe32 (a + 4) = ty ∧ dataAt m (a + 8) len.toNat = d ∧
      m.readBe32 (a + 8 + len.toNat) = codecCrc ty d := by
  rw [← hd] at h
  obtain ⟨hlen, htype, hdata, hcrc⟩ := dataAt_eq_chunkBytes_iff.1 h
  rw [hd] at hdata hcrc
  exact ⟨readBe32_of_dataAt hlen, readBe32_of_dataAt htype, hdata, readBe32_of_dataAt hcrc⟩

/-- The bytes of a chunk of letter type are a good chunk (43_chunk_codec.md rule R711). -/
theorem goodChunkAt_of_chunkBytes {m : Memory} {a r : Nat} {len ty : Word} {d : List Byte} (hd : d.length = len.toNat)
    (ht : letters4 ty = true) (hr : 12 + len.toNat ≤ r) (h : dataAt m a (12 + len.toNat) = chunkBytes len ty d) :
    goodChunkAt m a r := by
  obtain ⟨hlen, htype, hdata, hcrc⟩ := fields_of_chunkBytes hd h
  unfold goodChunkAt
  rw [hlen, htype, hdata, hcrc]
  exact ⟨hr, ht, rfl⟩

/-- What the decoder accepts is the bytes of the chunk it returns (43_chunk_codec.md rule R711). -/
theorem chunkBytes_of_decodeChunk {m : Memory} {a r : Nat} {k : Chunk} (h : decodeChunk m a r = .ok k) :
    dataAt m a (12 + k.len.toNat) = chunkBytes k.len k.chunkType (dataAt m (a + 8) k.len.toNat) := by
  obtain ⟨-, -, hcrc, rfl⟩ := decodeChunk_ok h
  rw [← dataAt_eq] at hcrc
  have hfields := (dataAt_eq_chunkBytes_iff (m := m) (a := a) (len := m.readBe32 a) (ty := m.readBe32 (a + 4))
    (d := dataAt m (a + 8) (m.readBe32 a).toNat)).2
  rw [dataAt_length] at hfields
  refine hfields ⟨(bytesBe32_readBe32 m a).symm, (bytesBe32_readBe32 m (a + 4)).symm, rfl, ?_⟩
  rw [hcrc, bytesBe32_readBe32]

/-- What a successful FRAME has checked and written (43_chunk_codec.md rule R702). -/
theorem exec_frame_next_ok {s t : State} {l : Latch} (hl : s.latch = some l) (h : exec .frame s = .next t)
    (ht : t.err = false) :
    letters4 l.ops.chunkType = true ∧
      dataAt t.mem s.out.ptr.toNat (12 + l.ops.srcLen.toNat) = framedBytes s l := by
  obtain ⟨u, hu, rfl⟩ := exec_next_ok hl h ht
  obtain ⟨hcheck, -, rfl⟩ := frameRule_eq_ok_iff.1 hu
  refine ⟨(frameCheck_eq_none.1 hcheck).1, ?_⟩
  rw [← framedBytes_length s l]
  exact dataAt_writeBytes_self s.mem s.out.ptr.toNat (framedBytes s l)

/-! ### The round trip -/

/-- Settles O43: the written bytes are a good chunk, and DEFRAME commits its fields. -/
theorem frameThenDeframeRoundTrip : Obligations.FrameThenDeframeRoundTrip := by
  intro s t u l k hl _ hframe hok hk haddr hlen hwindow hsame n p d c
  obtain ⟨hletters, hbytes⟩ := exec_frame_next_ok hl hframe hok
  have hkept : dataAt u.mem p (12 + n) = chunkBytes l.ops.srcLen l.ops.chunkType d :=
    (dataAt_congr fun i hi => hsame (p + i) (by omega) (by omega)).trans hbytes
  have hd : d.length = n := dataAt_length s.mem l.ops.srcAddr.toNat n
  obtain ⟨hflen, hftype, hfdata, hfcrc⟩ := fields_of_chunkBytes hd hkept
  have hp : k.ops.srcAddr.toNat = p := congrArg BitVec.toNat haddr
  have hgood : goodChunkAt u.mem k.ops.srcAddr.toNat k.ops.srcLen.toNat := by
    rw [hp]
    exact goodChunkAt_of_chunkBytes hd hletters hlen hkept
  refine ⟨?_, hfdata⟩
  have hexec := exec_deframe_good hk hwindow hgood
  have hnext : p + 12 + l.ops.srcLen.toNat = p + (12 + n) := Nat.add_assoc ..
  simp only [hp, hflen, hftype, hfcrc, hnext] at hexec
  exact hexec

/-- Settles O45: the decoded bytes are those of the chunk returned, and FRAME writes that chunk's bytes. -/
theorem decodedChunkReframesToTheSameBytes : Obligations.DecodedChunkReframesToTheSameBytes := by
  intro s t u v l k hl _ hdeframe hok hk _ hmem htype haddr hlen hframe hok'
  obtain ⟨w, hw, rfl⟩ := exec_next_ok hl hdeframe hok
  obtain ⟨-, c, hc, rfl⟩ := deframeRule_ok hw
  obtain ⟨-, hbytes⟩ := exec_frame_next_ok hk hframe hok'
  have hdata : framedData u k = dataAt s.mem (l.ops.srcAddr.toNat + 8) c.len.toNat := by
    rw [framedData, hmem, haddr, hlen]
    rfl
  rw [framedBytes, hdata, htype, hlen] at hbytes
  exact hbytes.trans (chunkBytes_of_decodeChunk hc).symm

/-! ### One bit flipped -/

/-- Memory `m'` is `m` but for bit j of the byte x bytes into the chunk of n data bytes at p. -/
def FlippedBit (m m' : Memory) (p n x j : Nat) : Prop :=
  ∀ a, p ≤ a → a < p + (12 + n) →
    m'.read a = if a = p + x then m.read a ^^^ BitVec.ofNat 8 (2 ^ j) else m.read a

theorem FlippedBit.read_other {m m' : Memory} {p n x j i : Nat} (h : FlippedBit m m' p n x j) (hi : i < 12 + n)
    (hx : i ≠ x) : m'.read (p + i) = m.read (p + i) := by
  rw [h (p + i) (by omega) (by omega), if_neg (by omega)]

theorem FlippedBit.read_ne {m m' : Memory} {p n x j : Nat} (h : FlippedBit m m' p n x j) (hx : x < 12 + n)
    (hj : j < 8) : m'.read (p + x) ≠ m.read (p + x) := by
  rw [h (p + x) (by omega) (by omega), if_pos rfl]
  exact xor_two_pow_ne _ hj

/-- A field away from the flipped byte reads as before. -/
theorem FlippedBit.readBe32_eq {m m' : Memory} {p n x j i : Nat} (h : FlippedBit m m' p n x j) (hi : i + 4 ≤ 12 + n)
    (hx : x < i ∨ i + 4 ≤ x) : m'.readBe32 (p + i) = m.readBe32 (p + i) := by
  refine readBe32_of_dataAt ?_
  rw [bytesBe32_readBe32]
  refine dataAt_congr fun k hk => ?_
  rw [Nat.add_assoc]
  exact h.read_other (by omega) (by omega)

/-- A sequence in memory around its k-th byte. -/
theorem dataAt_split (m : Memory) (a : Nat) {n k : Nat} (hk : k < n) :
    dataAt m a n = dataAt m a k ++ m.read (a + k) :: dataAt m (a + k + 1) (n - k - 1) := by
  conv_lhs => rw [show n = k + (1 + (n - k - 1)) by omega, dataAt_append, dataAt_append]
  rfl

/-- Two sequences in memory that differ in one byte have different CRCs (42_crc.md rule R605). -/
theorem crc32_dataAt_ne {m m' : Memory} {a n k : Nat} (hk : k < n) (hne : m'.read (a + k) ≠ m.read (a + k))
    (hsame : ∀ i, i < n → i ≠ k → m'.read (a + i) = m.read (a + i)) :
    crc32 (dataAt m' a n) ≠ crc32 (dataAt m a n) := by
  have hbefore : dataAt m' a k = dataAt m a k := dataAt_congr fun i hi => hsame i (by omega) (by omega)
  have hafter : dataAt m' (a + k + 1) (n - k - 1) = dataAt m (a + k + 1) (n - k - 1) :=
    dataAt_congr fun i hi => by
      rw [Nat.add_assoc, Nat.add_assoc]
      exact hsame _ (by omega) (by omega)
  rw [dataAt_split m a hk, dataAt_split m' a hk, hbefore, hafter]
  exact crc32_ne_of_byte_ne _ _ hne

/-- The CRC of a chunk in memory is over its type and data bytes (20_memory.md rule R210). -/
theorem crcOf_readBe32 (m : Memory) (a n : Nat) :
    crcOf (m.readBe32 a) (dataAt m (a + 4) n) = crc32 (dataAt m a (4 + n)) := by
  rw [crcOf, bytesBe32_readBe32, dataAt_append]

/-- A type in memory is four letters when its four bytes are (41_chunk_type.md rule R502). -/
theorem letters4_readBe32_iff (m : Memory) (a : Nat) :
    letters4 (m.readBe32 a) = true ↔ ∀ k, k < 4 → letter (m.read (a + k)) = true := by
  rw [letters4, bytesBe32_readBe32, dataAt, List.all_map, List.all_eq_true]
  simp only [List.mem_range, Function.comp_apply]

/-- A flipped bit in the type or data changes the CRC of the chunk, and not the CRC field (43_chunk_codec.md rule
R722). -/
theorem FlippedBit.crcOf_ne {m m' : Memory} {p n x j : Nat} (h : FlippedBit m m' p n x j) (hx4 : 4 ≤ x)
    (hx : x < 8 + n) (hj : j < 8) :
    crcOf (m'.readBe32 (p + 4)) (dataAt m' (p + 8) n) ≠ crcOf (m.readBe32 (p + 4)) (dataAt m (p + 8) n) := by
  obtain ⟨y, rfl⟩ := Nat.exists_eq_add_of_le hx4
  rw [show p + 8 = p + 4 + 4 by omega, crcOf_readBe32, crcOf_readBe32]
  refine crc32_dataAt_ne (k := y) (by omega) ?_ fun i hi hne => ?_
  · rw [Nat.add_assoc]
    exact h.read_ne (by omega) hj
  · rw [Nat.add_assoc]
    exact h.read_other (by omega) (by omega)

/-- With a flipped bit in its type or data, a type is still four letters unless the flipped byte is a type byte and no
letter (43_chunk_codec.md rule R722). -/
theorem FlippedBit.letters4_eq {m m' : Memory} {p n x j : Nat} (h : FlippedBit m m' p n x j) (hx4 : 4 ≤ x)
    (hletters : letters4 (m.readBe32 (p + 4)) = true) :
    letters4 (m'.readBe32 (p + 4)) = true ↔ ¬(x < 8 ∧ letter (m'.read (p + x)) = false) := by
  rw [letters4_readBe32_iff] at hletters ⊢
  constructor
  · rintro hall ⟨hx8, hno⟩
    have hyes := hall (x - 4) (by omega)
    rw [show p + 4 + (x - 4) = p + x by omega, hno] at hyes
    cases hyes
  · intro hflipped k hk
    by_cases hkx : 4 + k = x
    · rw [Nat.add_assoc, hkx]
      exact Bool.eq_true_of_not_eq_false fun hno => hflipped ⟨by omega, hno⟩
    · have hold := hletters k hk
      rw [Nat.add_assoc] at hold ⊢
      rwa [h.read_other (by omega) hkx]

/-- Settles O44: the length and the CRC field are unchanged, so the decoder fails at the type where the flipped byte
makes it no letter, and at the CRC elsewhere. -/
theorem tamperedChunkIsRejected : Obligations.TamperedChunkIsRejected := by
  intro s t u l k x j hl _ hframe hok hk haddr hlen hwindow hx4 hx hj hflip flipped
  obtain ⟨hletters, hbytes⟩ := exec_frame_next_ok hl hframe hok
  obtain ⟨hflen, hftype, hfdata, hfcrc⟩ := fields_of_chunkBytes (framedData_length s l) hbytes
  have hf : FlippedBit t.mem u.mem s.out.ptr.toNat l.ops.srcLen.toNat x j := hflip
  have hulen : u.mem.readBe32 s.out.ptr.toNat = l.ops.srcLen :=
    (hf.readBe32_eq (i := 0) (by omega) (by omega)).trans hflen
  have hucrc : u.mem.readBe32 (s.out.ptr.toNat + 8 + l.ops.srcLen.toNat) =
      codecCrc l.ops.chunkType (framedData s l) := by
    rw [← hfcrc, Nat.add_assoc]
    exact hf.readBe32_eq (by omega) (by omega)
  have hr : inRange u.config k.ops.source = true := inRange_words (.inr hwindow)
  have hcomplete : 12 + (u.mem.readBe32 s.out.ptr.toNat).toNat ≤ k.ops.srcLen.toNat := by rwa [hulen]
  have hfails : ∀ c, decodeChunk u.mem s.out.ptr.toNat k.ops.srcLen.toNat = .error c →
      exec .deframe u = .next (u.failedWith ⟨c, false, k.word.extractLsb' 24 8, 0, s.out.ptr⟩ u.seq) := by
    rw [← haddr]
    exact fun c hc => exec_deframe_of_decodeChunk_error hk hr hc
  have htype := hf.letters4_eq hx4 (hftype ▸ hletters)
  apply hfails
  split
  · exact decodeChunk_badType hcomplete (Bool.eq_false_iff.2 fun h4 => htype.1 h4 ‹_›)
  · refine decodeChunk_badCrc hcomplete (htype.2 ‹_›) ?_
    rw [hulen, hucrc, ← crcOf_eq, ← hftype, ← hfdata]
    exact hf.crcOf_ne hx4 hx hj

end Sys2Proof.Machine
end
